-- ==== Sys2Proof/Word.lean ====
section
/-!
DEFINITION. The words of MACORE: every value the spec gives a width in bits is a `BitVec` of that width
(spec/00_scope.md R6, R9; spec/30_encoding.md R51, R52, R55).
-/

namespace Sys2Proof

/-- A 32-bit unsigned word: a command word (R51), the accumulator `n` (R21), the carry `c` (R23). -/
abbrev Word := BitVec 32

/-- An IEEE-754 binary64 value as its 64-bit pattern `f64_bits` (R70): bit 63 the sign, bits 62:52 the biased
exponent, bits 51:0 the fraction. Also the 64-bit data field of a response (R52). -/
abbrev F64 := BitVec 64

/-- The character operand of `MABS`, 21 bits (R55, parameter `CHR_W` of R6). -/
abbrev ChrCode := BitVec 21

/-- The state-word index operand of `APRIME` and `AFOLD`, 2 bits; 0, 1, 2 are legal and 3 is reserved (R55, R60). -/
abbrev WordIdx := BitVec 2

end Sys2Proof
end

