-- ==== Sys2Proof/Config.lean ====
section
/-!
DEFINITION. The fixed parameters of MACORE (spec/00_scope.md R6, spec/40_numerics.md R75), and the free values:
constants with no body for the results the spec states no value for. No command can ask for a free value in a
state that keeps the lattice invariant (R26, R82).
-/

namespace Sys2Proof

/-- `N_INIT` (R6): the accumulator after reset and after `MINIT`. -/
def Config.nInit : Word := 0xefc8249d#32

/-- `C_INIT` (R6): the carry after reset and after `ACINIT`. -/
def Config.cInit : Word := 1#32

/-- `K_MASH` (R75): the binary64 value nearest to `0.02519603282416938`, exactly `3462916383 * 2^-37`. -/
def Config.kMash : F64 := 0x3F99CCFD23E00000#64

/-- `TWO32` (R75): `2^32`. -/
def Config.two32 : F64 := 0x41F0000000000000#64

/-- `TWO_M32` (R75): `2^-32`. -/
def Config.twoM32 : F64 := 0x3DF0000000000000#64

/-- `A_MUL` (R75): 2091639. -/
def Config.aMul : F64 := 0x413FEA7700000000#64

/-- `TWO21` (R75): `2^21`. -/
def Config.two21 : F64 := 0x4140000000000000#64

/-- `TWO_M53` (R75): `2^-53`. -/
def Config.twoM53 : F64 := 0x3CA0000000000000#64

/-- `one` (R75): 1.0. -/
def Config.one : F64 := 0x3FF0000000000000#64

/-- `PRIME_CHR` (R6): the space character, absorbed three times when priming. -/
def Config.primeChr : ChrCode := 0x20#21

/-- The three binary64 operations of R71 to R73, as names, so that one free value serves all three. -/
inductive ArithOp where
  /-- `fmul` (R71). -/
  | mul
  /-- `fadd` (R72). -/
  | add
  /-- `fsub` (R73). -/
  | sub
  deriving DecidableEq, Repr

/-- FREE VALUE (log entry 3): the result of `fmul`, `fadd` or `fsub` when an operand is an infinity or a NaN, which
R71 to R73 state no result for (R83). -/
opaque Config.unstatedArith (op : ArithOp) (a b : F64) : F64

/-- FREE VALUE (log entry 4): `trunc_u32` of an infinity or a NaN, which R76 leaves without a value
(spec/93_implementation_defined.md U1). -/
opaque Config.unstatedTruncU32 (x : F64) : Word

/-- FREE VALUE (log entry 5): what the 32-bit carry register holds when the integer part of `t` is not in
`[0, 2^32)`, or `t` is an infinity or a NaN; R77 defines `trunc_int` for `t >= 0` only. -/
opaque Config.unstatedCarry (t : F64) : Word

/-- FREE VALUE (log entry 6): `floor_f64` of an infinity or a NaN, which R78 states no result for. -/
opaque Config.unstatedFloor (x : F64) : Int

/-- FREE VALUE (log entry 6): the 32-bit result of `U32` when the floor of `r * 2^32` is not in `[0, 2^32)`, which
R112 states no result for. -/
opaque Config.unstatedU32 (floor : Int) : Word

/-- FREE VALUE (log entry 7): whether a NaN is "less than zero" in the test of `AFOLD`; R101 states no outcome. -/
opaque Config.unstatedNanLtZero (d : F64) : Bool

end Sys2Proof
end

