-- ==== Sys2Proof/Machine/F64.lean ====
section
/-!
DEFINITION. The binary64 primitives of spec/40_numerics.md (R70 to R78): the format, the exact real a finite value
stands for, rounding to nearest with ties to even, the three rounded operations, the conversion of an unsigned
integer, truncation and floor. Every operation is computed exactly on `Exact` reals and rounded once.
-/

namespace Sys2Proof.Machine

/-- The real number `m * 2^e`, held exactly. Every finite binary64 value is one, and so is every exact sum,
difference and product of two (R9, R71). -/
structure Exact where
  m : Int
  e : Int
  deriving DecidableEq, Repr

/-- The exact product. -/
def exactMul (x y : Exact) : Exact := ⟨x.m * y.m, x.e + y.e⟩

/-- The exact sum, over the smaller of the two exponents. -/
def exactAdd (x y : Exact) : Exact :=
  let e := min x.e y.e
  ⟨x.m * 2 ^ (x.e - e).toNat + y.m * 2 ^ (y.e - e).toNat, e⟩

/-- The exact negation. -/
def exactNeg (x : Exact) : Exact := ⟨-x.m, x.e⟩

/-- The integer part, rounding toward zero (R76: `z`). -/
def exactTrunc (x : Exact) : Int :=
  if 0 ≤ x.e then x.m * 2 ^ x.e.toNat else x.m.tdiv (2 ^ (-x.e).toNat)

/-- The largest integer not above `x` (R78). -/
def exactFloor (x : Exact) : Int :=
  if 0 ≤ x.e then x.m * 2 ^ x.e.toNat else x.m.fdiv (2 ^ (-x.e).toNat)

/-- The sign bit `S` (R70). -/
def f64Neg (x : F64) : Bool := x.getLsbD 63

/-- The biased exponent field `E` (R70). -/
def f64Exp (x : F64) : Nat := (x.extractLsb' 52 11).toNat

/-- The fraction field `M` (R70). -/
def f64Frac (x : F64) : Nat := (x.extractLsb' 0 52).toNat

/-- A magnitude with the sign of `x`. -/
def f64Signed (x : F64) (a : Nat) : Int := if f64Neg x then -(a : Int) else a

/-- The real a finite binary64 value stands for (R70); `none` for an infinity or a NaN (`E = 2047`).
Zero, of either sign, is `0 * 2^0`. -/
def f64Exact (x : F64) : Option Exact :=
  if f64Exp x = 2047 then none
  else if f64Exp x = 0 then
    if f64Frac x = 0 then some ⟨0, 0⟩ else some ⟨f64Signed x (f64Frac x), -1074⟩
  else some ⟨f64Signed x (2 ^ 52 + f64Frac x), (f64Exp x : Int) - 1075⟩

/-- `a / 2^k` rounded to the nearest integer, ties to the even one (R71). -/
def roundHalfEven (a k : Nat) : Nat :=
  let q := a / 2 ^ k
  let r := a % 2 ^ k
  if 2 ^ k < 2 * r ∨ (2 * r = 2 ^ k ∧ q % 2 = 1) then q + 1 else q

/-- The multiplier of R71: the positive real `a * 2^e` over the quantum `2^q`, rounded to the nearest integer. -/
def roundToQuantum (a : Nat) (e q : Int) : Nat :=
  if q ≤ e then a * 2 ^ (e - q).toNat else roundHalfEven a (q - e).toNat

/-- The pattern, without its sign, of the value `mult * 2^q` for a quantum exponent `q >= -1074` and a multiplier
`mult <= 2^53` that is at least `2^52` unless `q = -1074`: a multiplier of `2^52` or more carries its leading bit into
the exponent field. From `2^1024` on the result is infinity (R71). -/
def packMagnitude (mult : Nat) (q : Int) : Nat :=
  min ((q + 1074).toNat * 2 ^ 52 + mult) (2047 * 2 ^ 52)

/-- `RN` of the positive real `a * 2^e` (R71), as a pattern without its sign: the quantum is `2^(t - 52)` with
`t = max(floor(log2(a * 2^e)), -1022)`. -/
def rnMagnitude (a : Nat) (e : Int) : Nat :=
  let q := max ((a.log2 : Int) + e) (-1022) - 52
  packMagnitude (roundToQuantum a e q) q

/-- `RN(x)` (R71): roundTiesToEven to binary64; `RN(0)` is `+0`. -/
def rn (x : Exact) : F64 :=
  if x.m = 0 then 0#64
  else if x.m < 0 then BitVec.ofNat 64 (2 ^ 63 + rnMagnitude x.m.natAbs x.e)
  else BitVec.ofNat 64 (rnMagnitude x.m.natAbs x.e)

/-- `fmul(a, b) = RN(a * b)` (R71). -/
def fmul (a b : F64) : F64 :=
  match f64Exact a, f64Exact b with
  | some x, some y => rn (exactMul x y)
  | _, _ => Config.unstatedArith .mul a b

/-- `-0` (R70). -/
def negZero : F64 := 0x8000000000000000#64

/-- `fadd(a, b) = RN(a + b)` (R72); a zero sum is `+0` unless both operands are `-0`. -/
def fadd (a b : F64) : F64 :=
  match f64Exact a, f64Exact b with
  | some x, some y => if a = negZero ∧ b = negZero then negZero else rn (exactAdd x y)
  | _, _ => Config.unstatedArith .add a b

/-- `fsub(a, b) = RN(a - b)` (R73); equal operands give `+0`. -/
def fsub (a b : F64) : F64 :=
  match f64Exact a, f64Exact b with
  | some x, some y => rn (exactAdd x (exactNeg y))
  | _, _ => Config.unstatedArith .sub a b

/-- The binary64 value nearest to an integer; equal to it when its magnitude is at most `2^53` (R70). -/
def intToF64 (z : Int) : F64 := rn ⟨z, 0⟩

/-- `u32_to_f64(k)` (R74), exact. -/
def u32ToF64 (k : Word) : F64 := intToF64 k.toNat

/-- `trunc_u32(x)` (R76): the integer part modulo `2^32`. -/
def truncU32 (x : F64) : Word :=
  match f64Exact x with
  | some v => BitVec.ofInt 32 (exactTrunc v)
  | none => Config.unstatedTruncU32 x

/-- Whether an integer fits a 32-bit unsigned register. -/
def fitsU32 (z : Int) : Bool := decide (0 ≤ z ∧ z < 2 ^ 32)

/-- `trunc_int(t)` (R77) as the 32-bit carry register receives it. -/
def truncInt (t : F64) : Word :=
  match f64Exact t with
  | some v => if fitsU32 (exactTrunc v) then BitVec.ofInt 32 (exactTrunc v) else Config.unstatedCarry t
  | none => Config.unstatedCarry t

/-- `floor_f64(x)` (R78), an integer. -/
def floorF64 (x : F64) : Int :=
  match f64Exact x with
  | some v => exactFloor v
  | none => Config.unstatedFloor x

/-- `d < 0`, the binary64 comparison of `AFOLD` (R101): neither zero is negative. -/
def ltZero (d : F64) : Bool :=
  match f64Exact d with
  | some v => decide (v.m < 0)
  | none => if f64Frac d = 0 then f64Neg d else Config.unstatedNanLtZero d

end Sys2Proof.Machine
end

