-- ==== Sys2Proof/Syntax.lean ====
section
/-!
DEFINITION. The nine commands of MACORE, one constructor per row of spec/opcode_table.json (spec/30_encoding.md R56).
The pseudo-instructions of R62 are sequences of these and stand in Sys2Proof/Machine/Pseudo.lean.
-/

namespace Sys2Proof

/-- A command with its operand fields (R54, R55). -/
inductive Instr where
  /-- `MINIT` (R90): initialise the accumulator. -/
  | minit
  /-- `MABS chr` (R91): absorb one character code. -/
  | mabs (chr : ChrCode)
  /-- `MOUT` (R92): read the hash value. -/
  | mout
  /-- `APRIME idx` (R100): load a state word with the hash value. -/
  | aprime (idx : WordIdx)
  /-- `AFOLD idx` (R101): subtract the hash value from a state word. -/
  | afold (idx : WordIdx)
  /-- `ACINIT` (R102): initialise the carry. -/
  | acinit
  /-- `DRAW` (R110): one step of the recurrence. -/
  | draw
  /-- `U32` (R112): the 32-bit integer extractor. -/
  | u32
  /-- `F53` (R113): the 53-bit fraction extractor. -/
  | f53
  deriving DecidableEq, Repr

end Sys2Proof
end

