-- ==== Sys2Proof/WellFormed.lean ====
section
/-!
DEFINITION. Which command terms the spec gives an encoding as a legal command. The operand widths are in the types
(R54, R55); the one further check is that a state-word index is not the reserved 3 (spec/30_encoding.md R60).
-/

namespace Sys2Proof

/-- The index of a state word is legal: 0, 1 or 2 (R55, R60). -/
def legalIdx (idx : WordIdx) : Bool := idx != 3#2

/-- A command whose operands are all legal. -/
def Instr.wellFormed : Instr → Bool
  | .minit => true
  | .mabs _ => true
  | .mout => true
  | .aprime idx => legalIdx idx
  | .afold idx => legalIdx idx
  | .acinit => true
  | .draw => true
  | .u32 => true
  | .f53 => true

end Sys2Proof
end

