-- ==== Sys2Proof/Decode.lean ====
section
/-!
DEFINITION. The decoder of spec/30_encoding.md R57, total on all 2^32 words and refusing by name, and after it the
encoder and the opcode map of R56.
-/

namespace Sys2Proof

/-- Why a word is no legal command (R57, R58, R59, R60). -/
inductive DecodeError where
  /-- The opcode is not one of the nine assigned ones (R58). -/
  | illegalOpcode
  /-- A reserved operand bit is set, or the state-word index is 3 (R59, R60). -/
  | reservedField
  deriving DecidableEq, Repr

/-- `opc = cmd[31:24]` (R51). -/
def opcField (cmd : Word) : BitVec 8 := cmd.extractLsb' 24 8

/-- `arg = cmd[23:0]` (R51). -/
def argField (cmd : Word) : BitVec 24 := cmd.extractLsb' 0 24

/-- Format N (R54): `arg` must be zero. -/
def formatN (i : Instr) (arg : BitVec 24) : Except DecodeError Instr :=
  if arg = 0#24 then .ok i else .error .reservedField

/-- Format C (R54): `arg[23:21]` must be zero; `chr = arg[20:0]`. -/
def formatC (mk : ChrCode → Instr) (arg : BitVec 24) : Except DecodeError Instr :=
  if arg.extractLsb' 21 3 = 0#3 then .ok (mk (arg.extractLsb' 0 21)) else .error .reservedField

/-- Format I (R54): `arg[23:2]` must be zero and `idx = arg[1:0]` must not be 3 (R60). -/
def formatI (mk : WordIdx → Instr) (arg : BitVec 24) : Except DecodeError Instr :=
  if arg.extractLsb' 2 22 = 0#22 ∧ legalIdx (arg.extractLsb' 0 2) then .ok (mk (arg.extractLsb' 0 2))
  else .error .reservedField

/-- The decoding procedure of R57: the opcode is checked first, then the operand field by the opcode's format. -/
def decode (cmd : Word) : Except DecodeError Instr :=
  if opcField cmd = 0x10#8 then formatN .minit (argField cmd)
  else if opcField cmd = 0x11#8 then formatC .mabs (argField cmd)
  else if opcField cmd = 0x12#8 then formatN .mout (argField cmd)
  else if opcField cmd = 0x20#8 then formatI .aprime (argField cmd)
  else if opcField cmd = 0x21#8 then formatI .afold (argField cmd)
  else if opcField cmd = 0x22#8 then formatN .acinit (argField cmd)
  else if opcField cmd = 0x30#8 then formatN .draw (argField cmd)
  else if opcField cmd = 0x31#8 then formatN .u32 (argField cmd)
  else if opcField cmd = 0x32#8 then formatN .f53 (argField cmd)
  else .error .illegalOpcode

/-- The command word of an instruction (R56, R90 to R113: "Encoding"). -/
def encode : Instr → Word
  | .minit => 0x10000000#32
  | .mabs chr => 0x11000000#32 ||| chr.setWidth 32
  | .mout => 0x12000000#32
  | .aprime idx => 0x20000000#32 ||| idx.setWidth 32
  | .afold idx => 0x21000000#32 ||| idx.setWidth 32
  | .acinit => 0x22000000#32
  | .draw => 0x30000000#32
  | .u32 => 0x31000000#32
  | .f53 => 0x32000000#32

/-- A row of the opcode map (R56): a word `cmd` is an instance of the row when `cmd & mask == pattern`. -/
structure OpcodeRow where
  mnemonic : String
  mask : Word
  pattern : Word
  deriving DecidableEq, Repr

/-- The nine rows of R56. -/
def opcodeTable : List OpcodeRow :=
  [⟨"MINIT", 0xFFFFFFFF#32, 0x10000000#32⟩,
   ⟨"MABS", 0xFFE00000#32, 0x11000000#32⟩,
   ⟨"MOUT", 0xFFFFFFFF#32, 0x12000000#32⟩,
   ⟨"APRIME", 0xFFFFFFFC#32, 0x20000000#32⟩,
   ⟨"AFOLD", 0xFFFFFFFC#32, 0x21000000#32⟩,
   ⟨"ACINIT", 0xFFFFFFFF#32, 0x22000000#32⟩,
   ⟨"DRAW", 0xFFFFFFFF#32, 0x30000000#32⟩,
   ⟨"U32", 0xFFFFFFFF#32, 0x31000000#32⟩,
   ⟨"F53", 0xFFFFFFFF#32, 0x32000000#32⟩]

/-- The mnemonic of an instruction's row (R56). -/
def rowMnemonic : Instr → String
  | .minit => "MINIT"
  | .mabs _ => "MABS"
  | .mout => "MOUT"
  | .aprime _ => "APRIME"
  | .afold _ => "AFOLD"
  | .acinit => "ACINIT"
  | .draw => "DRAW"
  | .u32 => "U32"
  | .f53 => "F53"

/-- Whether a word is an instance of a row (R56). -/
def OpcodeRow.covers (row : OpcodeRow) (cmd : Word) : Bool := (cmd &&& row.mask) == row.pattern

/-- The command word of an instruction whose bits are `w`, `nbits` of them; bits above are zero. A command is one
32-bit word (R51, R61), passed whole, so that no byte order enters (spec/20_memory.md R42). -/
def tableWord (nbits w : Nat) : Word := BitVec.ofNat 32 (w % 2 ^ nbits)

/-- The instruction the decoder reads from a word given in the numbering of spec/opcode_table.json; `none` where it
refuses. -/
def decodeTableWord (nbits w : Nat) : Option Instr :=
  match decode (tableWord nbits w) with
  | .ok i => some i
  | .error _ => none

end Sys2Proof
end

