-- ==== Sys2Proof/Machine/State.lean ====
section
/-!
DEFINITION. The state of MACORE as plain data (spec/10_state.md R20), the reset state (R33), and what the host puts in
and gets out (spec/30_encoding.md R50, R52).
-/

namespace Sys2Proof.Machine

/-- A state word: "binary64, or unwritten" (R20). An unwritten word holds no value, not zero and not any other
binary64 number (R24). The constructor is the written flag: `w[i] = 1` exactly when `s[i]` is `written` (R24). -/
inductive StateWord where
  /-- No command has written the word since reset: `w[i] = 0`. -/
  | unwritten
  /-- The word holds a binary64 value, given by its pattern: `w[i] = 1`. -/
  | written (x : F64)
  deriving DecidableEq, Repr

/-- The outcome of a command (R120). Codes 4 to 15 are never produced, so there are four values. -/
inductive Status where
  /-- Code 0: the command succeeded. -/
  | ok
  /-- Code 1: `cmd[31:24]` is not an assigned opcode (R122). -/
  | illegalOpcode
  /-- Code 2: a reserved operand bit is 1, or `idx = 3` (R123). -/
  | reservedField
  /-- Code 3: the command must read a state word whose written flag is 0 (R124). -/
  | unwrittenState
  deriving DecidableEq, Repr

/-- The response to one command (R50, R52). -/
structure Response where
  status : Status
  data : F64
  deriving DecidableEq, Repr

/-- One input of the host: "the host's input as a sequence whose elements are either a command word or `RESET`"
(spec/70_reset_and_hazards.md R141). -/
inductive HostInput where
  /-- The `RESET` event (R140). -/
  | reset
  /-- A 32-bit command word (R51). -/
  | command (cmd : Word)
  deriving DecidableEq, Repr

/-- The architectural state of R20 (`n`, `s[0]`, `s[1]`, `s[2]`, `c`, and `w[0]`, `w[1]`, `w[2]` as the constructors
of the three words), with the model's own record of the command port: the inputs the host has issued that have not yet
taken effect, and the responses given so far (log entry 2). -/
structure State where
  /-- The Mash accumulator `n` (R21). -/
  n : Word
  /-- The first (oldest) Alea state word `s[0]` with its flag `w[0]` (R22, R24). -/
  s0 : StateWord
  /-- The second Alea state word `s[1]` with its flag `w[1]` (R22, R24). -/
  s1 : StateWord
  /-- The third (newest) Alea state word `s[2]` with its flag `w[2]` (R22, R24). -/
  s2 : StateWord
  /-- The Alea carry `c` (R23). -/
  c : Word
  /-- The model's own: the host's inputs still to take effect, in the order issued (R44, R141). -/
  inputs : List HostInput
  /-- The model's own: the responses given so far, oldest first (R44, R151). -/
  responses : List Response
  deriving DecidableEq, Repr

/-- The state right after reset (R33, R140): `n = 0xefc8249d`, `c = 1`, the three words unwritten. No input is waiting
and no response has been given. -/
def State.reset : State where
  n := Config.nInit
  s0 := .unwritten
  s1 := .unwritten
  s2 := .unwritten
  c := Config.cInit
  inputs := []
  responses := []

/-- Faults: there are none. "There is no trap, no hang, no stuck state: every command word gets a response"
(spec/00_scope.md R12, spec/60_exceptions.md R127), so nobody raises one; an error is a response, not a fault. -/
inductive Fault where
  deriving DecidableEq, Repr

/-- Refusals: the block "never refuses a command" (R127), so no meaning answers with one. -/
inductive Refusal where
  /-- Raised only by an arm of `exec` for an instruction that has no meaning yet; no arm is left so. Safe. -/
  | notModelled (mnemonic : String)
  deriving DecidableEq, Repr

end Sys2Proof.Machine
end

