-- ==== Sys2Proof/Machine/Ops.lean ====
section
/-!
DEFINITION. The named operations over the registers and the command port: giving a response, failing (the block's one
form of an exception, spec/60_exceptions.md R121), the reset event and taking the next host input. There is no memory
(spec/20_memory.md R40) and nothing to return from (R128).
-/

namespace Sys2Proof.Machine

/-- The 4-bit code of an outcome (R120). -/
def statusCode : Status → BitVec 4
  | .ok => 0#4
  | .illegalOpcode => 1#4
  | .reservedField => 2#4
  | .unwrittenState => 3#4

/-- The outcome of a word the decoder refuses (R57, R122, R123). -/
def rejectStatus : DecodeError → Status
  | .illegalOpcode => .illegalOpcode
  | .reservedField => .reservedField

/-- `rsp <- (status, data)` (R10): one response, after all earlier ones (R44). -/
def State.respond (s : State) (st : Status) (data : F64) : State :=
  { s with responses := s.responses ++ [⟨st, data⟩] }

/-- The response of a command that succeeds (R53). -/
def State.succeed (s : State) (data : F64) : State := s.respond .ok data

/-- `fail E` (R121): no register is written and the response is `(code of E, 0)`. -/
def State.fail (s : State) (st : Status) : State := s.respond st 0#64

/-- The `RESET` event (R140): every register takes its reset value; no response. The command port's record is the
host's and stays. -/
def State.applyReset (s : State) : State :=
  { State.reset with inputs := s.inputs, responses := s.responses }

/-- Write the accumulator (R21). -/
def State.setN (s : State) (n : Word) : State := { s with n := n }

/-- Write the carry (R23). -/
def State.setC (s : State) (c : Word) : State := { s with c := c }

/-- Take the host's next input, in the order issued (R44); `none` when the host has issued nothing more. -/
def State.nextInput (s : State) : Option (HostInput × State) :=
  match s.inputs with
  | [] => none
  | i :: rest => some (i, { s with inputs := rest })

/-- Put an input in front of those waiting, so that it takes effect next. -/
def State.issueNext (s : State) (i : HostInput) : State := { s with inputs := i :: s.inputs }

end Sys2Proof.Machine
end

