-- ==== Sys2Proof/Machine/Operands.lean ====
section
/-!
DEFINITION. The operand forms: the character operand (R55), the state word an index names (R10, R55, R60), and the hash
value that `MOUT`, `APRIME` and `AFOLD` read from the accumulator (R92, R100, R101).
-/

namespace Sys2Proof.Machine

/-- `zext_32(chr)` (R55): zero-extended, never sign-extended, scaled or shifted. -/
def chrOperand (chr : ChrCode) : Word := chr.setWidth 32

/-- `s[idx]` (R10); `none` for the reserved index 3 (R60). -/
def State.word (s : State) (idx : WordIdx) : Option StateWord :=
  if idx = 0#2 then some s.s0
  else if idx = 1#2 then some s.s1
  else if idx = 2#2 then some s.s2
  else none

/-- `s[idx] <- x ; w[idx] <- 1` (R100); the reserved index 3 names no word. -/
def State.setWord (s : State) (idx : WordIdx) (x : F64) : State :=
  if idx = 0#2 then { s with s0 := .written x }
  else if idx = 1#2 then { s with s1 := .written x }
  else if idx = 2#2 then { s with s2 := .written x }
  else s

/-- `fmul(u32_to_f64(n), TWO_M32)`: the accumulator scaled to `[0, 1)` (R92, R100, R101). -/
def hashValue (n : Word) : F64 := fmul (u32ToF64 n) Config.twoM32

end Sys2Proof.Machine
end

