-- ==== Sys2Proof/Machine/Flags.lean ====
section
/-!
DEFINITION. The only flags, the written flags `w[0]`, `w[1]`, `w[2]` (spec/10_state.md R24), and the test of all three
that `DRAW`, `U32` and `F53` make.
-/

namespace Sys2Proof.Machine

/-- The written flag of a state word (R24). -/
def StateWord.flag : StateWord → Bool
  | .unwritten => false
  | .written _ => true

/-- `w[idx]` (R24); false for the reserved index. -/
def State.w (s : State) (idx : WordIdx) : Bool :=
  match s.word idx with
  | some word => word.flag
  | none => false

/-- The Alea state a draw works on: three binary64 words and the carry (R110). -/
structure Alea where
  s0 : F64
  s1 : F64
  s2 : F64
  c : Word
  deriving DecidableEq, Repr

/-- The test "if `w[0] = 0` or `w[1] = 0` or `w[2] = 0`" (R110): the Alea state when all three words are written. -/
def State.alea (s : State) : Option Alea :=
  match s.s0, s.s1, s.s2 with
  | .written a, .written b, .written d => some ⟨a, b, d, s.c⟩
  | _, _, _ => none

/-- Write the three words and the carry back; the flags stay 1 (R110). -/
def State.setAlea (s : State) (q : Alea) : State :=
  { s with s0 := .written q.s0, s1 := .written q.s1, s2 := .written q.s2, c := q.c }

end Sys2Proof.Machine
end

