-- ==== Sys2Proof/Machine/Draw.lean ====
section
/-!
DEFINITION. The Alea draw family: `DRAW`, `U32`, `F53` (spec/43_alea_draw.md R110, R112, R113).
-/

namespace Sys2Proof.Machine

open Host (Outcome)

/-- `draw()` (R110): `t` is formed from the old `s[0]` and the old `c`; the words move down; the new carry is the
integer part of `t`; the new `s[2]`, which is the value returned, is `t` less the new carry. -/
def drawStep (q : Alea) : Alea :=
  let t := fadd (fmul Config.aMul q.s0) (fmul (u32ToF64 q.c) Config.twoM32)
  let c := truncInt t
  { s0 := q.s1, s1 := q.s2, s2 := fsub t (u32ToF64 c), c := c }

/-- The float-to-uint32 extractor `r -> floor(r * 2^32)` (R112), zero-extended to 64 bits. -/
def extractU32 (r : F64) : F64 :=
  let u := floorF64 (fmul r Config.two32)
  if fitsU32 u then BitVec.ofInt 64 u else (Config.unstatedU32 u).setWidth 64

/-- The float-to-fract53 extractor `(r1, r2) -> r1 + floor(r2 * 2^21) * 2^-53` (R113). -/
def extractF53 (r1 r2 : F64) : F64 :=
  fadd r1 (fmul (intToF64 (floorF64 (fmul r2 Config.two21))) Config.twoM53)

/-- `DRAW` (R110): one draw; the response carries the pattern of the new `s[2]`. -/
def execDraw (s : State) : Outcome State Fault Refusal :=
  match s.alea with
  | none => .next (s.fail .unwrittenState)
  | some q => .next ((s.setAlea (drawStep q)).succeed (drawStep q).s2)

/-- `U32` (R112): one draw; the response carries `floor(draw * 2^32)` as an integer. -/
def execU32 (s : State) : Outcome State Fault Refusal :=
  match s.alea with
  | none => .next (s.fail .unwrittenState)
  | some q => .next ((s.setAlea (drawStep q)).succeed (extractU32 (drawStep q).s2))

/-- `F53` (R113): two draws, the second from the state the first one left; the first is the high part. -/
def execF53 (s : State) : Outcome State Fault Refusal :=
  match s.alea with
  | none => .next (s.fail .unwrittenState)
  | some q =>
    let q1 := drawStep q
    let q2 := drawStep q1
    .next ((s.setAlea q2).succeed (extractF53 q1.s2 q2.s2))

end Sys2Proof.Machine
end

