-- ==== Sys2Proof/Machine/Mash.lean ====
section
/-!
DEFINITION. The Mash family: `MINIT`, `MABS`, `MOUT` (spec/41_mash.md R90 to R92).
-/

namespace Sys2Proof.Machine

open Host (Outcome)

/-- The values of one execution of the update of R91, under the names R91 gives them; `n` is the new accumulator. -/
structure MashTrace where
  a : Word
  h1 : F64
  n1 : Word
  f1 : F64
  p : F64
  n2 : Word
  f2 : F64
  x : F64
  sum : F64
  n : Word
  deriving DecidableEq, Repr

/-- Steps 1 to 8 of the Mash update (R91). -/
def mashSteps (n : Word) (chr : ChrCode) : MashTrace :=
  let a := n + chrOperand chr
  let h1 := fmul Config.kMash (u32ToF64 a)
  let n1 := truncU32 h1
  let f1 := fsub h1 (u32ToF64 n1)
  let p := fmul f1 (u32ToF64 n1)
  let n2 := truncU32 p
  let f2 := fsub p (u32ToF64 n2)
  let x := fmul f2 Config.two32
  let sum := fadd (u32ToF64 n2) x
  { a := a, h1 := h1, n1 := n1, f1 := f1, p := p, n2 := n2, f2 := f2, x := x, sum := sum, n := truncU32 sum }

/-- `MINIT` (R90): `n <- 0xefc8249d`. -/
def execMinit (s : State) : Outcome State Fault Refusal :=
  .next ((s.setN Config.nInit).succeed 0#64)

/-- `MABS chr` (R91): `n` takes the value of the eight-step update. -/
def execMabs (chr : ChrCode) (s : State) : Outcome State Fault Refusal :=
  .next ((s.setN (mashSteps s.n chr).n).succeed 0#64)

/-- `MOUT` (R92): the response carries the pattern of `n * 2^-32`; no register is written. -/
def execMout (s : State) : Outcome State Fault Refusal :=
  .next (s.succeed (hashValue s.n))

end Sys2Proof.Machine
end

