-- ==== Sys2Proof/Machine/Seed.lean ====
section
/-!
DEFINITION. The Alea seeding family: `APRIME`, `AFOLD`, `ACINIT` (spec/42_alea_seed.md R100 to R102).
-/

namespace Sys2Proof.Machine

open Host (Outcome)

/-- The value `AFOLD` leaves in a word that held `x`, with accumulator `n` (R101): the difference, plus 1.0 when the
difference is less than zero. -/
def foldValue (x : F64) (n : Word) : F64 :=
  let d := fsub x (hashValue n)
  if ltZero d then fadd d Config.one else d

/-- `APRIME idx` (R100): `s[idx]` takes the hash value and `w[idx]` becomes 1; `idx = 3` fails (R60). -/
def execAprime (idx : WordIdx) (s : State) : Outcome State Fault Refusal :=
  match s.word idx with
  | none => .next (s.fail .reservedField)
  | some _ => .next ((s.setWord idx (hashValue s.n)).succeed 0#64)

/-- `AFOLD idx` (R101): the hash value is subtracted from `s[idx]`; `idx = 3` fails (R60), an unwritten word fails
(R124). -/
def execAfold (idx : WordIdx) (s : State) : Outcome State Fault Refusal :=
  match s.word idx with
  | none => .next (s.fail .reservedField)
  | some .unwritten => .next (s.fail .unwrittenState)
  | some (.written x) => .next ((s.setWord idx (foldValue x s.n)).succeed 0#64)

/-- `ACINIT` (R102): `c <- 1`. -/
def execAcinit (s : State) : Outcome State Fault Refusal :=
  .next ((s.setC Config.cInit).succeed 0#64)

end Sys2Proof.Machine
end

