-- ==== Sys2Proof/Machine/Dispatch.lean ====
section
/-!
DEFINITION. The dispatch from each command to its meaning, one arm per row of the opcode map (spec/30_encoding.md R56).
-/

namespace Sys2Proof.Machine

def exec (i : Instr) (s : State) : Host.Outcome State Fault Refusal :=
  match i with
  | .minit => Sys2Proof.Machine.execMinit s
  | .mabs chr => Sys2Proof.Machine.execMabs chr s
  | .mout => Sys2Proof.Machine.execMout s
  | .aprime idx => Sys2Proof.Machine.execAprime idx s
  | .afold idx => Sys2Proof.Machine.execAfold idx s
  | .acinit => Sys2Proof.Machine.execAcinit s
  | .draw => Sys2Proof.Machine.execDraw s
  | .u32 => Sys2Proof.Machine.execU32 s
  | .f53 => Sys2Proof.Machine.execF53 s

end Sys2Proof.Machine
end

