-- ==== Sys2Proof/Machine/Step.lean ====
section
/-!
DEFINITION. One step: the next input of the host takes effect (spec/20_memory.md R44, spec/70_reset_and_hazards.md
R141). A command word is decoded (R57) and executed, or answered with the decoder's error; a `RESET` resets; with no
input nothing happens (spec/60_exceptions.md R129).
-/

namespace Sys2Proof.Machine

/-- One step of the block. -/
def step (s : State) : Host.Outcome State Fault Refusal :=
  match s.nextInput with
  | none => .next s
  | some (.reset, s1) => .next s1.applyReset
  | some (.command cmd, s1) =>
    match decode cmd with
    | .error e => .next (s1.fail (rejectStatus e))
    | .ok i => exec i s1

/-- `s` with the command word `w` of `nbits` bits issued by the host as the next input (log entry 2). -/
def State.withFetchWord (s : State) (nbits w : Nat) : State :=
  s.issueNext (.command (tableWord nbits w))

end Sys2Proof.Machine
end

