-- ==== Sys2Proof/Machine/Integer.lean ====
section
/-!
DEFINITION. The spec's integer formulations, which it calls theorems about the binary64 rules (spec/10_state.md R28):
the bit patterns of returned values (R79), rounding to 53 bits (R81), the Mash update (R93), the seeding arithmetic
(R103) and the draw (R111, R114). The machine's step uses none of them; the statements compare it with them.
-/

namespace Sys2Proof.Machine

/-- The pattern of `k * 2^-32` (R79 (a)), for `k < 2^32`. -/
def latticeBits (k : Nat) : F64 :=
  if k = 0 then 0#64
  else
    let e := k.log2
    BitVec.ofNat 64 ((e + 991) * 2 ^ 52 + (k - 2 ^ e) * 2 ^ (52 - e))

/-- The pattern of `m * 2^-53` (R79 (b)), for `m < 2^53`. -/
def fractionBits (m : Nat) : F64 :=
  if m = 0 then 0#64
  else
    let e := m.log2
    BitVec.ofNat 64 ((e + 970) * 2 ^ 52 + (m - 2 ^ e) * 2 ^ (52 - e))

/-- A lattice value `k * 2^-32` for a 32-bit `k` (R26). -/
def latticeF64 (k : Word) : F64 := latticeBits k.toNat

/-- `RN53(m)` (R81): `m` rounded to 53 significant bits, ties to even. -/
def rn53 (m : Nat) : Nat :=
  if m < 2 ^ 53 then m
  else
    let e := (m.log2 + 1) - 53
    let q := m / 2 ^ e
    let r := m % 2 ^ e
    if 2 ^ (e - 1) < r ∨ (r = 2 ^ (e - 1) ∧ q % 2 = 1) then (q + 1) * 2 ^ e else q * 2 ^ e

/-- The Mash update on integers (R93). -/
def mashInt (n : Word) (chr : ChrCode) : Word :=
  let a := (n.toNat + chr.toNat) % 2 ^ 32
  let bigQ1 := rn53 (3462916383 * a)
  let n1 := bigQ1 / 2 ^ 37
  let bigF1 := bigQ1 % 2 ^ 37
  let bigQ2 := rn53 (bigF1 * n1)
  let n2 := bigQ2 / 2 ^ 37
  let bigF2 := bigQ2 % 2 ^ 37
  BitVec.ofNat 32 ((n2 + bigF2 / 32) % 2 ^ 32)

/-- The Alea state on integers (R111): `s[i] = k_i * 2^-32`. -/
structure AleaInt where
  k0 : Word
  k1 : Word
  k2 : Word
  c : Word
  deriving DecidableEq, Repr

/-- One draw on integers (R111); the value returned is `k2 * 2^-32`. -/
def drawInt (q : AleaInt) : AleaInt :=
  let bigT := 2091639 * q.k0.toNat + q.c.toNat
  { k0 := q.k1, k1 := q.k2, k2 := BitVec.ofNat 32 (bigT % 2 ^ 32), c := BitVec.ofNat 32 (bigT / 2 ^ 32) }

end Sys2Proof.Machine
end

