-- ==== Sys2Proof/Machine/Pseudo.lean ====
section
/-!
DEFINITION. The pseudo-instructions of spec/30_encoding.md R62 as the command sequences they expand to. A text enters as
its character codes, the host's `TEXT_MAP` (spec/00_scope.md R8) applied outside the model.
-/

namespace Sys2Proof.Machine

/-- `ABSORB "text"`: one `MABS` per character code, in order. -/
def pseudoAbsorb (codes : List ChrCode) : List Instr := codes.map .mabs

/-- `HASH "text"`: absorb, then `MOUT`. -/
def pseudoHash (codes : List ChrCode) : List Instr := pseudoAbsorb codes ++ [.mout]

/-- `RANDOM`: `DRAW`. -/
def pseudoRandom : List Instr := [.draw]

/-- `NEWHASH`: `MINIT`. -/
def pseudoNewhash : List Instr := [.minit]

/-- `PRIME`: each state word is loaded with the hash of a space. -/
def pseudoPrime : List Instr :=
  [.mabs Config.primeChr, .aprime 0#2, .mabs Config.primeChr, .aprime 1#2, .mabs Config.primeChr, .aprime 2#2]

/-- `FOLD "text"`: the hash of the text is subtracted from each state word, absorbed anew each time. -/
def pseudoFold (codes : List ChrCode) : List Instr :=
  pseudoAbsorb codes ++ [.afold 0#2] ++ pseudoAbsorb codes ++ [.afold 1#2] ++ pseudoAbsorb codes ++ [.afold 2#2]

/-- `SEED "text"`: the whole constructor (R104). -/
def pseudoSeed (codes : List ChrCode) : List Instr :=
  [.minit] ++ pseudoPrime ++ pseudoFold codes ++ [.acinit]

/-- A command sequence as the host's inputs. -/
def commandInputs (is : List Instr) : List HostInput := is.map fun i => .command (encode i)

end Sys2Proof.Machine
end

