-- ==== Sys2Proof/Safety.lean ====
section
/-!
DEFINITION. The terms the statements use: the real a binary64 value stands for (R70), the rounding relation of R71, the
lattice and carry invariants (spec/10_state.md R26, R27), and what one step does to the registers and the port.
-/

namespace Sys2Proof.Machine

/-- The rational number an exact real is. -/
def exactValue (x : Exact) : ℚ := (x.m : ℚ) * (2 : ℚ) ^ x.e

/-- The real number a finite binary64 value stands for (R70); 0 for an infinity or a NaN. -/
def f64Value (x : F64) : ℚ :=
  match f64Exact x with
  | some v => exactValue v
  | none => 0

/-- Neither an infinity nor a NaN (R70). -/
def f64Finite (x : F64) : Prop := f64Exp x ≠ 2047

/-- `x` is finite and stands for exactly `v`. -/
def f64Is (x : F64) (v : ℚ) : Prop := f64Finite x ∧ f64Value x = v

/-- `RN(v) = x` for a non-zero real `v` (R71): with `q = 2^(max(floor(log2 |v|), -1022) - 52)`, `x` is an integer
multiple of `q` nearest to `v`, the even multiple when two are equally near. -/
def RoundsTiesToEven (v : ℚ) (x : F64) : Prop :=
  let q : ℚ := 2 ^ (max (Int.log 2 |v|) (-1022) - 52)
  ∃ mult : ℤ, f64Is x (mult * q) ∧ 2 * |v - mult * q| ≤ q ∧ (2 * |v - mult * q| = q → Even mult)

/-- A state word that is unwritten or holds a lattice value (R26). -/
def StateWord.OnLattice (word : StateWord) : Prop :=
  word = .unwritten ∨ ∃ k : Word, word = .written (latticeF64 k)

/-- The lattice invariant (R26): every written state word is a lattice value. -/
def State.OnLattice (s : State) : Prop := s.s0.OnLattice ∧ s.s1.OnLattice ∧ s.s2.OnLattice

/-- The carry bound (R27). -/
def State.CarryBounded (s : State) : Prop := s.c.toNat ≤ 2091638

/-- Every response with an error status carries no data (R52). -/
def State.ErrorsCarryNoData (s : State) : Prop :=
  ∀ r ∈ s.responses, r.status ≠ .ok → r.data = 0#64

/-- The three state words hold the lattice values of an integer Alea state, and the carry is its carry (R111). -/
def State.HoldsAlea (s : State) (q : AleaInt) : Prop :=
  s.s0 = .written (latticeF64 q.k0) ∧ s.s1 = .written (latticeF64 q.k1) ∧ s.s2 = .written (latticeF64 q.k2) ∧ s.c = q.c

/-- `s` with the three words and the carry of an integer Alea state. -/
def State.withAlea (s : State) (q : AleaInt) : State :=
  { s with s0 := .written (latticeF64 q.k0), s1 := .written (latticeF64 q.k1), s2 := .written (latticeF64 q.k2),
           c := q.c }

/-- Two states agree on the eight registers of R20. -/
def State.SameRegisters (s t : State) : Prop := t.n = s.n ∧ t.s0 = s.s0 ∧ t.s1 = s.s1 ∧ t.s2 = s.s2 ∧ t.c = s.c

/-- `s` with a command word issued by the host as the next input. -/
def State.issue (s : State) (cmd : Word) : State := s.issueNext (.command cmd)

/-- A safe state: its step answers a next state. -/
def SafeStep (s : State) : Prop := ∃ t, step s = .next t

/-- The states the block can reach from reset by any sequence of host inputs (R26: "from reset by any sequence of
command words", with further resets as R141 allows). -/
inductive Reachable : State → Prop where
  /-- The state after reset, whatever the host goes on to issue. -/
  | reset (inputs : List HostInput) : Reachable { State.reset with inputs := inputs }
  /-- One step further. -/
  | step (s t : State) (h : Reachable s) (hst : step s = .next t) : Reachable t

/-- The opcode is one of the nine assigned ones (R56). -/
def AssignedOpcode (cmd : Word) : Prop :=
  cmd.extractLsb' 24 8 ∈ [0x10#8, 0x11#8, 0x12#8, 0x20#8, 0x21#8, 0x22#8, 0x30#8, 0x31#8, 0x32#8]

/-- The operand field breaks the format of an assigned opcode (R54, R123). -/
def BrokenOperand (cmd : Word) : Prop :=
  (cmd.extractLsb' 24 8 ∈ [0x10#8, 0x12#8, 0x22#8, 0x30#8, 0x31#8, 0x32#8] ∧ cmd.extractLsb' 0 24 ≠ 0#24) ∨
  (cmd.extractLsb' 24 8 = 0x11#8 ∧ cmd.extractLsb' 21 3 ≠ 0#3) ∨
  (cmd.extractLsb' 24 8 ∈ [0x20#8, 0x21#8] ∧ (cmd.extractLsb' 2 22 ≠ 0#22 ∨ cmd.extractLsb' 0 2 = 3#2))

end Sys2Proof.Machine
end

