-- ==== Sys2Proof/Certificates/Slice0/Obligations.lean ====
section
/-!
DEFINITION. The statements for the provers. Each docstring names the rule of spec/ it formalises. `s.issue cmd` is `s`
with `cmd` as the host's next input, so that `step (s.issue cmd)` answers what the block does with `cmd` in state `s`.
-/

open Sys2Proof Sys2Proof.Machine
open Host (Outcome)

/-! ### Encoding -/

/-- R54 to R57: every legal command is read back from its own word, with every operand value. -/
def Obligations.DecodeOfEncode : Prop :=
  ∀ i : Instr, i.wellFormed = true → decode (encode i) = .ok i

/-- R56, R57: a word the decoder accepts is the word of the command it reads, and that command is legal; no word has a
second reading and no command a second word. -/
def Obligations.EncodeOfDecode : Prop :=
  ∀ (cmd : Word) (i : Instr), decode cmd = .ok i → i.wellFormed = true ∧ encode i = cmd

/-- R56: the legal words are exactly the instances of the nine rows, except that `APRIME` and `AFOLD` must have
`idx != 3`; the command read is the row's; no word is an instance of two rows. -/
def Obligations.LegalWordsAreTableInstances : Prop :=
  (∀ cmd : Word, (∃ i, decode cmd = .ok i) ↔
    ∃ row ∈ opcodeTable, row.covers cmd ∧
      ((row.mnemonic = "APRIME" ∨ row.mnemonic = "AFOLD") → cmd.extractLsb' 0 2 ≠ 3#2)) ∧
  (∀ (cmd : Word) (i : Instr), decode cmd = .ok i →
    ∃ row ∈ opcodeTable, row.covers cmd ∧ row.mnemonic = rowMnemonic i) ∧
  (∀ (cmd : Word), ∀ r1 ∈ opcodeTable, ∀ r2 ∈ opcodeTable, r1.covers cmd → r2.covers cmd → r1 = r2)

/-- Words written out from the spec's encodings and vectors (spec/95_test_vectors.md sections 3, 5, 7 and 8). -/
def Obligations.SpecWordsDecode : Prop :=
  decode 0x10000000#32 = .ok .minit ∧ decode 0x1110ffff#32 = .ok (.mabs 0x10ffff#21) ∧
  decode 0x111FFFFF#32 = .ok (.mabs 0x1fffff#21) ∧ decode 0x12000000#32 = .ok .mout ∧
  decode 0x20000001#32 = .ok (.aprime 1#2) ∧ decode 0x21000002#32 = .ok (.afold 2#2) ∧
  decode 0x22000000#32 = .ok .acinit ∧ decode 0x30000000#32 = .ok .draw ∧ decode 0x31000000#32 = .ok .u32 ∧
  decode 0x32000000#32 = .ok .f53 ∧ decode 0x1F000020#32 = .error .illegalOpcode ∧
  decode 0x11200000#32 = .error .reservedField ∧ decode 0x21000003#32 = .error .reservedField

/-- R122: an unassigned opcode answers `IllegalOpcode` whatever the other bits are, and changes no register; no other
word is answered so. -/
def Obligations.UnassignedOpcodeAnswersIllegal : Prop :=
  (∀ (s : State) (cmd : Word), ¬ AssignedOpcode cmd → step (s.issue cmd) = .next (s.fail .illegalOpcode)) ∧
  (∀ (s t : State) (cmd : Word) (r : Response), step (s.issue cmd) = .next t → t.responses = s.responses ++ [r] →
    r.status = .illegalOpcode → ¬ AssignedOpcode cmd)

/-- R123: an assigned opcode whose operand field breaks its format answers `ReservedField`, and changes no register; no
other word is answered so. -/
def Obligations.BrokenOperandAnswersReserved : Prop :=
  (∀ (s : State) (cmd : Word), BrokenOperand cmd → step (s.issue cmd) = .next (s.fail .reservedField)) ∧
  (∀ (s t : State) (cmd : Word) (r : Response), step (s.issue cmd) = .next t → t.responses = s.responses ++ [r] →
    r.status = .reservedField → BrokenOperand cmd)

/-- R125: `IllegalOpcode` before `ReservedField` before `UnwrittenState`: an `UnwrittenState` answer means that the
opcode is assigned and the operand field is in order, and the two examples of the rule. -/
def Obligations.ErrorPriorityIsDecodeOrder : Prop :=
  (∀ (s t : State) (cmd : Word) (r : Response), step (s.issue cmd) = .next t → t.responses = s.responses ++ [r] →
    r.status = .unwrittenState → AssignedOpcode cmd ∧ ¬ BrokenOperand cmd) ∧
  (∀ cmd : Word, BrokenOperand cmd → AssignedOpcode cmd) ∧
  (∀ s : State, step (s.issue 0x30000001#32) = .next (s.fail .reservedField)) ∧
  (∀ s : State, step (s.issue 0x21000003#32) = .next (s.fail .reservedField))

/-! ### The step and the command port -/

/-- R44, R57: with a command word next, the step consumes it; a word that decodes runs as its command on the state
without it, and a word that does not is answered with the decoder's error. -/
def Obligations.StepRunsDecodedInstruction : Prop :=
  (∀ (s : State) (cmd : Word) (rest : List HostInput) (i : Instr), s.inputs = .command cmd :: rest →
    decode cmd = .ok i → step s = exec i { s with inputs := rest }) ∧
  (∀ (s : State) (cmd : Word) (rest : List HostInput) (e : DecodeError), s.inputs = .command cmd :: rest →
    decode cmd = .error e → step s = .next ({ s with inputs := rest }.fail (rejectStatus e)))

/-- R129: nothing happens except in response to a command or to reset. -/
def Obligations.NoInputNoChange : Prop :=
  ∀ s : State, s.inputs = [] → step s = .next s

/-- R140: the reset event sets every register to its reset value and gives no response; R141: two resets in a row equal
one. -/
def Obligations.ResetEventSetsResetState : Prop :=
  (∀ (s : State) (rest : List HostInput), s.inputs = .reset :: rest →
    step s = .next { n := 0xefc8249d#32, s0 := .unwritten, s1 := .unwritten, s2 := .unwritten, c := 1#32,
                     inputs := rest, responses := s.responses }) ∧
  (∀ (s : State) (rest : List HostInput), s.inputs = .reset :: .reset :: rest →
    core.run 2 s = core.run 1 { s with inputs := .reset :: rest })

/-- R127, R50: every one of the 2^32 words, in every state, gets exactly one response and the block is ready for the
next input; no state's step answers a fault or a refusal. -/
def Obligations.EveryCommandIsAnswered : Prop :=
  (∀ (s : State) (cmd : Word) (rest : List HostInput), s.inputs = .command cmd :: rest →
    ∃ t r, step s = .next t ∧ t.responses = s.responses ++ [r] ∧ t.inputs = rest) ∧
  (∀ s : State, SafeStep s)

/-- R33: what reset leaves: `n`, `c`, the cleared flags and the unwritten words. -/
def Obligations.ResetLeavesDocumentedValues : Prop :=
  State.reset.n = 0xefc8249d#32 ∧ State.reset.c = 1#32 ∧
  State.reset.s0 = .unwritten ∧ State.reset.s1 = .unwritten ∧ State.reset.s2 = .unwritten ∧
  ∀ idx : WordIdx, State.reset.w idx = false

/-! ### The Mash family -/

/-- R90: `MINIT` sets `n` to the constant, and touches nothing else; a word with its opcode and a non-zero operand field
fails with `ReservedField`. -/
def Obligations.MinitInitialisesAccumulator : Prop :=
  (∀ s : State, exec .minit s = .next { s with n := 0xefc8249d#32, responses := s.responses ++ [⟨.ok, 0#64⟩] }) ∧
  (∀ (s : State) (cmd : Word), cmd.extractLsb' 24 8 = 0x10#8 →
    step (s.issue cmd) = if cmd.extractLsb' 0 24 = 0#24 then exec .minit s else .next (s.fail .reservedField))

/-- R93: `MABS`, for every accumulator and every character code, is the integer computation; it touches nothing else. -/
def Obligations.MabsEqualsIntegerUpdate : Prop :=
  ∀ (s : State) (chr : ChrCode),
    exec (.mabs chr) s = .next { s with n := mashInt s.n chr, responses := s.responses ++ [⟨.ok, 0#64⟩] }

/-- R91, R82: the intermediate values of the Mash update: each of the two products, where it is not zero, is rounded
once, both are finite and below `2^27`, every other value is exact, and each lies in the range R91 gives it. -/
def Obligations.MabsIntermediateValues : Prop :=
  ∀ (n : Word) (chr : ChrCode),
    let t := mashSteps n chr
    t.a.toNat = (n.toNat + chr.toNat) % 2 ^ 32 ∧
    (t.a ≠ 0#32 → RoundsTiesToEven (f64Value Config.kMash * t.a.toNat) t.h1) ∧
    f64Finite t.h1 ∧ 0 ≤ f64Value t.h1 ∧ f64Value t.h1 < 108216137 ∧ (t.n1.toNat : ℤ) = ⌊f64Value t.h1⌋ ∧
    f64Is t.f1 (f64Value t.h1 - t.n1.toNat) ∧ 0 ≤ f64Value t.f1 ∧ f64Value t.f1 < 1 ∧
    (f64Value t.f1 * t.n1.toNat ≠ 0 → RoundsTiesToEven (f64Value t.f1 * t.n1.toNat) t.p) ∧
    f64Finite t.p ∧ 0 ≤ f64Value t.p ∧ f64Value t.p < 2 ^ 27 ∧ (t.n2.toNat : ℤ) = ⌊f64Value t.p⌋ ∧
    f64Is t.f2 (f64Value t.p - t.n2.toNat) ∧ 0 ≤ f64Value t.f2 ∧ f64Value t.f2 < 1 ∧
    f64Is t.x (f64Value t.f2 * 2 ^ 32) ∧ f64Is t.sum (t.n2.toNat + f64Value t.x) ∧
    f64Value t.sum < 2 ^ 32 + 2 ^ 27 ∧ (t.n.toNat : ℤ) = ⌊f64Value t.sum⌋ % 2 ^ 32

/-- R91, corner cases (a) and (b): when the sum of step 1, modulo `2^32`, is below 40, the new accumulator is 0. -/
def Obligations.MabsSmallSumGivesZero : Prop :=
  ∀ (s : State) (chr : ChrCode), (s.n.toNat + chr.toNat) % 2 ^ 32 < 40 →
    exec (.mabs chr) s = .next { s with n := 0#32, responses := s.responses ++ [⟨.ok, 0#64⟩] }

/-- R92: `MOUT` answers the pattern of `n * 2^-32`, exactly, writes no register, and never returns 1.0; a word with its
opcode and a non-zero operand field fails with `ReservedField`. -/
def Obligations.MoutReturnsScaledAccumulator : Prop :=
  (∀ s : State, ∃ d, exec .mout s = .next { s with responses := s.responses ++ [⟨.ok, d⟩] } ∧
    d = latticeBits s.n.toNat ∧ f64Is d (s.n.toNat / 2 ^ 32) ∧ f64Value d < 1) ∧
  (∀ (s : State) (cmd : Word), cmd.extractLsb' 24 8 = 0x12#8 →
    step (s.issue cmd) = if cmd.extractLsb' 0 24 = 0#24 then exec .mout s else .next (s.fail .reservedField))

/-- R94 (a), R41: absorbing a text is the left-to-right composition of the update over its character codes, one command
each, for a text of any length; the empty text changes nothing. -/
def Obligations.AbsorbingComposesLeftToRight : Prop :=
  ∀ (s : State) (codes : List ChrCode),
    core.run codes.length { s with inputs := commandInputs (pseudoAbsorb codes) ++ s.inputs } =
      .next { s with n := codes.foldl mashInt s.n,
                     responses := s.responses ++ List.replicate codes.length ⟨.ok, 0#64⟩ }

/-! ### The Alea seeding family -/

/-- R100: `APRIME idx` writes the hash value to `s[idx]`, written or not before, and sets `w[idx]`; the other words, `n`
and `c` are unchanged; `idx = 3` or a reserved bit fails with `ReservedField`. -/
def Obligations.AprimeLoadsHashValue : Prop :=
  (∀ s : State, exec (.aprime 0#2) s =
    .next { s with s0 := .written (latticeF64 s.n), responses := s.responses ++ [⟨.ok, 0#64⟩] }) ∧
  (∀ s : State, exec (.aprime 1#2) s =
    .next { s with s1 := .written (latticeF64 s.n), responses := s.responses ++ [⟨.ok, 0#64⟩] }) ∧
  (∀ s : State, exec (.aprime 2#2) s =
    .next { s with s2 := .written (latticeF64 s.n), responses := s.responses ++ [⟨.ok, 0#64⟩] }) ∧
  (∀ s : State, exec (.aprime 3#2) s = .next (s.fail .reservedField)) ∧
  (∀ (s : State) (cmd : Word), cmd.extractLsb' 24 8 = 0x20#8 →
    step (s.issue cmd) =
      if cmd.extractLsb' 2 22 = 0#22 ∧ cmd.extractLsb' 0 2 ≠ 3#2 then exec (.aprime (cmd.extractLsb' 0 2)) s
      else .next (s.fail .reservedField))

/-- R103: with `s[i] = k_i * 2^-32`, `APRIME idx` is `k_idx <- n` and `AFOLD idx` is `k_idx <- (k_idx - n) mod 2^32`;
nothing else changes. -/
def Obligations.SeedingEqualsIntegerArithmetic : Prop :=
  (∀ (s : State) (idx : WordIdx), idx ≠ 3#2 →
    exec (.aprime idx) s = .next ((s.setWord idx (latticeBits s.n.toNat)).succeed 0#64)) ∧
  (∀ (s : State) (idx : WordIdx) (k : Word), s.word idx = some (.written (latticeF64 k)) →
    exec (.afold idx) s =
      .next ((s.setWord idx (latticeBits (((k.toNat : ℤ) - s.n.toNat) % 2 ^ 32).toNat)).succeed 0#64))

/-- R101 on any written word: `AFOLD` completes and writes only `s[idx]`. On a finite word `x` (below `2^1000`, so that
no rounding comes near infinity) the difference `v = x - n * 2^-32` is rounded once, a zero difference gives `+0`, a
positive one stays, and a negative one has 1.0 added, rounded once more. What a word that is an infinity or a NaN
becomes is a free value (log entry 3). -/
def Obligations.AfoldOnAnyWrittenWord : Prop :=
  ∀ (s : State) (idx : WordIdx) (x : F64), s.word idx = some (.written x) →
    ∃ y, exec (.afold idx) s = .next ((s.setWord idx y).succeed 0#64) ∧
      (f64Finite x → |f64Value x| < 2 ^ 1000 →
        let v : ℚ := f64Value x - s.n.toNat / 2 ^ 32
        (v = 0 → y = 0#64) ∧ (0 < v → RoundsTiesToEven v y) ∧
        (v < 0 → ∃ d, RoundsTiesToEven v d ∧
          ((f64Value d + 1 = 0 → y = 0#64) ∧ (f64Value d + 1 ≠ 0 → RoundsTiesToEven (f64Value d + 1) y))))

/-- R101, errors: `AFOLD` on an unwritten word fails with `UnwrittenState` and with a reserved operand fails with
`ReservedField`; a legal word runs as `AFOLD`. -/
def Obligations.AfoldErrors : Prop :=
  (∀ (s : State) (idx : WordIdx), s.word idx = some .unwritten →
    exec (.afold idx) s = .next (s.fail .unwrittenState)) ∧
  (∀ s : State, exec (.afold 3#2) s = .next (s.fail .reservedField)) ∧
  (∀ (s : State) (cmd : Word), cmd.extractLsb' 24 8 = 0x21#8 →
    step (s.issue cmd) =
      if cmd.extractLsb' 2 22 = 0#22 ∧ cmd.extractLsb' 0 2 ≠ 3#2 then exec (.afold (cmd.extractLsb' 0 2)) s
      else .next (s.fail .reservedField))

/-- R102: `ACINIT` sets `c` to 1 and touches nothing else; a word with its opcode and a non-zero operand field fails
with `ReservedField`. -/
def Obligations.AcinitInitialisesCarry : Prop :=
  (∀ s : State, exec .acinit s = .next { s with c := 1#32, responses := s.responses ++ [⟨.ok, 0#64⟩] }) ∧
  (∀ (s : State) (cmd : Word), cmd.extractLsb' 24 8 = 0x22#8 →
    step (s.issue cmd) = if cmd.extractLsb' 0 24 = 0#24 then exec .acinit s else .next (s.fail .reservedField))

/-- R104: the sequence of `SEED "text"`, from any state and for a text of any length: every response is `(OK, 0)`, and
the state left is the document's: each word the primed value less the folded one, the accumulator carried through the
six hashes, the carry 1. -/
def Obligations.SeedSequenceBuildsGenerator : Prop :=
  ∀ (s : State) (codes : List ChrCode),
    let p0 := mashInt 0xefc8249d#32 0x20#21
    let p1 := mashInt p0 0x20#21
    let p2 := mashInt p1 0x20#21
    let f0 := codes.foldl mashInt p2
    let f1 := codes.foldl mashInt f0
    let f2 := codes.foldl mashInt f1
    core.run (11 + 3 * codes.length) { s with inputs := commandInputs (pseudoSeed codes) ++ s.inputs } =
      .next { s with
        n := f2, s0 := .written (latticeF64 (p0 - f0)), s1 := .written (latticeF64 (p1 - f1)),
        s2 := .written (latticeF64 (p2 - f2)), c := 1#32,
        responses := s.responses ++ List.replicate (11 + 3 * codes.length) ⟨.ok, 0#64⟩ }

/-! ### The Alea draw family -/

/-- R111: on lattice words and any 32-bit carry, `DRAW` is the multiply-with-carry step on integers, and answers
`k_2 * 2^-32` of the state it leaves; `n` is unchanged. -/
def Obligations.DrawEqualsMultiplyWithCarry : Prop :=
  ∀ (s : State) (q : AleaInt), s.HoldsAlea q →
    exec .draw s = .next { s.withAlea (drawInt q) with
      responses := s.responses ++ [⟨.ok, latticeBits (drawInt q).k2.toNat⟩] }

/-- R114: `U32` returns `draw_k()`, and `F53` the pattern of `((k * 2^21) + (k' div 2^11)) * 2^-53` for the two draws
`k` and then `k'`; their state changes are one draw and two. -/
def Obligations.ExtractorsEqualIntegerForm : Prop :=
  ∀ (s : State) (q : AleaInt), s.HoldsAlea q →
    exec .u32 s = .next { s.withAlea (drawInt q) with
      responses := s.responses ++ [⟨.ok, (drawInt q).k2.setWidth 64⟩] } ∧
    exec .f53 s = .next { s.withAlea (drawInt (drawInt q)) with
      responses := s.responses ++
        [⟨.ok, fractionBits ((drawInt q).k2.toNat * 2 ^ 21 + (drawInt (drawInt q)).k2.toNat / 2 ^ 11)⟩] }

/-- R110, R112, R113, R148: when the three words are written, whatever they hold, the three commands complete and draw
from one stream: `DRAW` moves the words down and answers the new `s[2]`; `U32` leaves the state of one `DRAW` and its
data has bits 63:32 zero; `F53` leaves the state of two `DRAW`s. `n` is unchanged by all three. -/
def Obligations.DrawFamilySharesOneStream : Prop :=
  ∀ (s : State) (a b d : F64), s.s0 = .written a → s.s1 = .written b → s.s2 = .written d →
    ∃ y c' t1, t1 = { s with s0 := .written b, s1 := .written d, s2 := .written y, c := c',
                             responses := s.responses ++ [⟨.ok, y⟩] } ∧
      exec .draw s = .next t1 ∧
      (∃ u : F64, u.toNat < 2 ^ 32 ∧
        exec .u32 s = .next { t1 with responses := s.responses ++ [⟨.ok, u⟩] }) ∧
      (∃ t2 v, exec .draw t1 = .next t2 ∧
        exec .f53 s = .next { t2 with responses := s.responses ++ [⟨.ok, v⟩] })

/-- R124: a legal `AFOLD idx` fails with `UnwrittenState` exactly when `w[idx] = 0`, and `DRAW`, `U32`, `F53` exactly
when some flag is 0; and once all three flags are 1 no command clears one, so the error cannot occur again until a
reset. -/
def Obligations.UnwrittenStateExactlyWhenFlagClear : Prop :=
  (∀ (s : State) (idx : WordIdx), idx ≠ 3#2 →
    (exec (.afold idx) s = .next (s.fail .unwrittenState) ↔ s.w idx = false)) ∧
  (∀ (s : State) (i : Instr), i = .draw ∨ i = .u32 ∨ i = .f53 →
    (exec i s = .next (s.fail .unwrittenState) ↔ (s.w 0#2 && s.w 1#2 && s.w 2#2) = false)) ∧
  (∀ (s t : State) (i : Instr), (s.w 0#2 && s.w 1#2 && s.w 2#2) = true → exec i s = .next t →
    (t.w 0#2 && t.w 1#2 && t.w 2#2) = true)

/-- R82, R110, on any finite `s[0]` in `[0, 1)` and any 32-bit carry, lattice or not: the draw completes, the new carry
is at most 2091639, and the value drawn is finite and in `[0, 1)`. -/
def Obligations.DrawRangeOnAnyUnitState : Prop :=
  ∀ (s : State) (a b d : F64), s.s0 = .written a → s.s1 = .written b → s.s2 = .written d →
    f64Finite a → 0 ≤ f64Value a → f64Value a < 1 →
    ∃ y c', exec .draw s = .next { s with s0 := .written b, s1 := .written d, s2 := .written y, c := c',
                                          responses := s.responses ++ [⟨.ok, y⟩] } ∧
      c'.toNat ≤ 2091639 ∧ f64Finite y ∧ 0 ≤ f64Value y ∧ f64Value y < 1

/-- R115 (a): in every state that keeps the lattice invariant with its words written, the output of `DRAW` is a value in
`[0, 1 - 2^-32]`, that of `U32` an integer below `2^32`, that of `F53` a value in `[0, 1 - 2^-53]`. -/
def Obligations.DrawOutputsInRange : Prop :=
  ∀ s : State, s.OnLattice → (s.w 0#2 && s.w 1#2 && s.w 2#2) = true →
    (∃ t y, exec .draw s = .next t ∧ t.responses = s.responses ++ [⟨.ok, y⟩] ∧
      f64Finite y ∧ 0 ≤ f64Value y ∧ f64Value y ≤ 1 - (2 : ℚ) ^ (-32 : ℤ)) ∧
    (∃ t u, exec .u32 s = .next t ∧ t.responses = s.responses ++ [⟨.ok, u⟩] ∧ u.toNat < 2 ^ 32) ∧
    (∃ t v, exec .f53 s = .next t ∧ t.responses = s.responses ++ [⟨.ok, v⟩] ∧
      f64Finite v ∧ 0 ≤ f64Value v ∧ f64Value v ≤ 1 - (2 : ℚ) ^ (-53 : ℤ))

/-- R110, corner cases (a) and (b): as a function of the Alea state, a draw leaves the all-zero state only from itself,
and the all-maximum state with carry 2091638 only from itself among carries up to that bound. -/
def Obligations.FixedPointsHaveNoOtherPredecessor : Prop :=
  (∀ (s t : State) (q : AleaInt), s.HoldsAlea q → exec .draw s = .next t →
    (t.HoldsAlea ⟨0#32, 0#32, 0#32, 0#32⟩ ↔ q = ⟨0#32, 0#32, 0#32, 0#32⟩)) ∧
  (∀ (s t : State) (q : AleaInt), s.HoldsAlea q → q.c.toNat ≤ 2091638 → exec .draw s = .next t →
    (t.HoldsAlea ⟨0xffffffff#32, 0xffffffff#32, 0xffffffff#32, 2091638#32⟩ ↔
      q = ⟨0xffffffff#32, 0xffffffff#32, 0xffffffff#32, 2091638#32⟩))

/-- R110, corner case (a), claims that the block cannot reach the all-zero Alea state from reset. Expected to FAIL: the
rules of the commands themselves give a run that reaches it, through `APRIME` with `n = 0` while `c = 0` (log entry
14). -/
def Obligations.AllZeroAleaStateIsUnreachable : Prop :=
  ∀ s : State, Reachable s → ¬ s.HoldsAlea ⟨0#32, 0#32, 0#32, 0#32⟩

/-! ### Rules over all commands -/

/-- R25, the W and S columns: which command may write which register, in every state; every command takes no input and
gives exactly one response. -/
def Obligations.AccessMatrixWrites : Prop :=
  ∀ (i : Instr) (s t : State), exec i s = .next t →
    t.inputs = s.inputs ∧ (∃ r, t.responses = s.responses ++ [r]) ∧
    (i ≠ .minit → (∀ chr, i ≠ .mabs chr) → t.n = s.n) ∧
    (i ≠ .acinit → i ≠ .draw → i ≠ .u32 → i ≠ .f53 → t.c = s.c) ∧
    (∀ idx : WordIdx, i ≠ .aprime idx → i ≠ .afold idx → i ≠ .draw → i ≠ .u32 → i ≠ .f53 → t.word idx = s.word idx)

/-- R21, R25: no command of the draw family, nor `ACINIT`, reads or writes `n`: from states that differ in `n` alone
they give the same response and the same registers but `n`. -/
def Obligations.DrawFamilyIgnoresAccumulator : Prop :=
  ∀ (i : Instr) (s t : State) (m : Word), i = .draw ∨ i = .u32 ∨ i = .f53 ∨ i = .acinit → exec i s = .next t →
    exec i (s.setN m) = .next (t.setN m)

/-- R25, R91, R92: no Mash command reads or writes a state word, a flag or the carry. -/
def Obligations.MashFamilyIgnoresAlea : Prop :=
  ∀ (i : Instr) (s t : State) (a b d : StateWord) (k : Word),
    i = .minit ∨ i = .mout ∨ (∃ chr, i = .mabs chr) → exec i s = .next t →
    exec i { s with s0 := a, s1 := b, s2 := d, c := k } = .next { t with s0 := a, s1 := b, s2 := d, c := k }

/-- R102, R25: no seeding command reads the carry, so the position of `ACINIT` among them does not matter. -/
def Obligations.SeedingIgnoresCarry : Prop :=
  ∀ (s t u : State) (i : Instr), (∃ idx, i = .aprime idx ∨ i = .afold idx) → exec i s = .next t →
    exec .acinit t = .next u → ∃ s', exec .acinit s = .next s' ∧ ∃ u', exec i s' = .next u' ∧ u.SameRegisters u'

/-- R126: a failing command leaves all eight registers exactly as they were, its data is 0, its response is the last
one, and the inputs after it still wait; this for every command word in every state. -/
def Obligations.FailingCommandChangesNothing : Prop :=
  ∀ (s t : State) (cmd : Word) (rest : List HostInput) (r : Response), s.inputs = .command cmd :: rest →
    step s = .next t → t.responses = s.responses ++ [r] → r.status ≠ .ok →
    s.SameRegisters t ∧ r.data = 0#64 ∧ t.inputs = rest

/-- R24: no step but a reset clears a written flag, and only `APRIME idx` sets `w[idx]`. -/
def Obligations.FlagsSetByAprimeClearedByReset : Prop :=
  (∀ (s t : State) (idx : WordIdx), s.w idx = true → step s = .next t →
    t.w idx = true ∨ ∃ rest, s.inputs = .reset :: rest) ∧
  (∀ (s t : State) (idx : WordIdx), s.w idx = false → step s = .next t → t.w idx = true →
    ∃ cmd rest, s.inputs = .command cmd :: rest ∧ decode cmd = .ok (.aprime idx))

/-! ### Invariants -/

/-- R26: every step, from every state that keeps it, keeps the lattice invariant. -/
def Obligations.EveryStepKeepsLattice : Prop :=
  ∀ s t : State, s.OnLattice → step s = .next t → t.OnLattice

/-- R27: every step, from every state with lattice words and a bounded carry, keeps the carry at most 2091638. -/
def Obligations.EveryStepKeepsCarryBound : Prop :=
  ∀ s t : State, s.OnLattice ∧ s.CarryBounded → step s = .next t → t.OnLattice ∧ t.CarryBounded

/-- R52: every step keeps it that a response with an error status carries no data. -/
def Obligations.EveryStepKeepsErrorsWithoutData : Prop :=
  ∀ s t : State, s.ErrorsCarryNoData → step s = .next t → t.ErrorsCarryNoData

/-- The three invariants hold at reset. -/
def Obligations.ResetMeetsInvariants : Prop :=
  State.reset.OnLattice ∧ State.reset.CarryBounded ∧ State.reset.ErrorsCarryNoData

/-- R26, R27: in every state reachable from reset each written word is a lattice value, so a finite value in `[0, 1)`
with the sign bit clear, and the carry is at most 2091638. -/
def Obligations.ReachableStatesAreLatticeStates : Prop :=
  ∀ s : State, Reachable s →
    (∀ (idx : WordIdx) (x : F64), s.word idx = some (.written x) →
      (∃ k : Word, x = latticeF64 k ∧ f64Is x (k.toNat * (2 : ℚ) ^ (-32 : ℤ))) ∧
      0 ≤ f64Value x ∧ f64Value x < 1 ∧ f64Neg x = false) ∧
    s.c.toNat ≤ 2091638

/-! ### Numerics -/

/-- R71: `RN` of a non-zero real below `2^1023` is the nearest multiple of its quantum, ties to even; `RN(0)` is `+0`;
from `2^1024` on the result is the infinity of its sign. -/
def Obligations.RnRoundsTiesToEven : Prop :=
  (∀ v : Exact, exactValue v ≠ 0 → |exactValue v| < 2 ^ 1023 → RoundsTiesToEven (exactValue v) (rn v)) ∧
  (∀ v : Exact, exactValue v = 0 → rn v = 0#64) ∧
  (∀ v : Exact, 2 ^ 1024 ≤ exactValue v → rn v = 0x7FF0000000000000#64) ∧
  (∀ v : Exact, exactValue v ≤ -2 ^ 1024 → rn v = 0xFFF0000000000000#64)

/-- R71 to R73: product, sum and difference of finite values are rounded once from the exact real; an exact zero gives
`+0` (a sum: unless both operands are `-0`). -/
def Obligations.ArithmeticRoundsOnce : Prop :=
  ∀ a b : F64, f64Finite a → f64Finite b →
    (f64Value a * f64Value b = 0 → fmul a b = 0#64) ∧
    (f64Value a * f64Value b ≠ 0 → |f64Value a * f64Value b| < 2 ^ 1023 →
      RoundsTiesToEven (f64Value a * f64Value b) (fmul a b)) ∧
    (f64Value a + f64Value b = 0 → ¬ (a = 0x8000000000000000#64 ∧ b = 0x8000000000000000#64) → fadd a b = 0#64) ∧
    (f64Value a + f64Value b ≠ 0 → |f64Value a + f64Value b| < 2 ^ 1023 →
      RoundsTiesToEven (f64Value a + f64Value b) (fadd a b)) ∧
    (f64Value a = f64Value b → fsub a b = 0#64) ∧
    (f64Value a ≠ f64Value b → |f64Value a - f64Value b| < 2 ^ 1023 →
      RoundsTiesToEven (f64Value a - f64Value b) (fsub a b))

/-- R75: the exact values of the seven constants, and `K_MASH` is the binary64 value nearest to the printed literal. -/
def Obligations.ConstantsHaveDocumentedValues : Prop :=
  f64Is Config.kMash (3462916383 / 2 ^ 37) ∧ f64Is Config.two32 (2 ^ 32) ∧ f64Is Config.twoM32 (1 / 2 ^ 32) ∧
  f64Is Config.aMul 2091639 ∧ f64Is Config.two21 (2 ^ 21) ∧ f64Is Config.twoM53 (1 / 2 ^ 53) ∧ f64Is Config.one 1 ∧
  RoundsTiesToEven (2519603282416938 / 10 ^ 17) Config.kMash

/-- R76: `trunc_u32` of every finite value, negative or large, is its integer part, rounding toward zero, modulo
`2^32`. -/
def Obligations.TruncU32IsIntegerPartModulo : Prop :=
  ∀ x : F64, f64Finite x →
    ((truncU32 x).toNat : ℤ) = (if 0 ≤ f64Value x then ⌊f64Value x⌋ else -⌊-f64Value x⌋) % 2 ^ 32

/-- R77, R78: `trunc_int` of every finite value in `[0, 2^32)` is its floor, held in the 32-bit carry, and `floor_f64`
of every finite value is the largest integer not above it. -/
def Obligations.TruncIntAndFloorOfFinite : Prop :=
  (∀ x : F64, f64Finite x → 0 ≤ f64Value x → f64Value x < 2 ^ 32 → ((truncInt x).toNat : ℤ) = ⌊f64Value x⌋) ∧
  (∀ x : F64, f64Finite x → (floorF64 x : ℚ) ≤ f64Value x ∧ f64Value x < floorF64 x + 1)

/-- R79: the fields of the patterns the block returns: a lattice value `k * 2^-32`, and a value `m * 2^-53`, as the
rounded operations compute them. -/
def Obligations.ReturnedPatternsHaveDocumentedFields : Prop :=
  (∀ k : Word, k ≠ 0#32 →
    f64Neg (hashValue k) = false ∧ f64Exp (hashValue k) = k.toNat.log2 + 991 ∧
    f64Frac (hashValue k) = (k.toNat - 2 ^ k.toNat.log2) * 2 ^ (52 - k.toNat.log2)) ∧
  hashValue 0#32 = 0#64 ∧
  (∀ m : Nat, 0 < m → m < 2 ^ 53 →
    f64Neg (fmul (intToF64 m) Config.twoM53) = false ∧ f64Exp (fmul (intToF64 m) Config.twoM53) = m.log2 + 970 ∧
    f64Frac (fmul (intToF64 m) Config.twoM53) = (m - 2 ^ m.log2) * 2 ^ (52 - m.log2))

/-- R81: for an integer `m` and an exponent `j` with the result normal, `RN(m * 2^j) = RN53(m) * 2^j`. -/
def Obligations.Rn53AgreesWithRn : Prop :=
  ∀ (m : Nat) (j : ℤ), m ≠ 0 → -1022 ≤ (m.log2 : ℤ) + j → (m.log2 : ℤ) + j < 1023 →
    f64Is (rn ⟨m, j⟩) (rn53 m * (2 : ℚ) ^ j)

/-- R120: the status codes. -/
def Obligations.StatusCodes : Prop :=
  statusCode .ok = 0#4 ∧ statusCode .illegalOpcode = 1#4 ∧ statusCode .reservedField = 2#4 ∧
  statusCode .unwrittenState = 3#4 ∧ ∀ st : Status, (statusCode st).toNat < 4
end

