-- ==== Sys2Proof/Laws/Encoding.lean ====
section
/-!
SUPPORT. The fields of a command word and the words of the encoder as natural numbers, so that facts about decoding are
linear arithmetic.
-/

namespace Sys2Proof

theorem opcField_toNat (cmd : Word) : (opcField cmd).toNat = cmd.toNat / 2 ^ 24 := by
  simp only [opcField, BitVec.extractLsb'_toNat, Nat.shiftRight_eq_div_pow]
  have := cmd.isLt
  omega

theorem argField_toNat (cmd : Word) : (argField cmd).toNat = cmd.toNat % 2 ^ 24 := by
  simp only [argField, BitVec.extractLsb'_toNat, Nat.shiftRight_eq_div_pow]
  omega

theorem or_low_bits (a b k : Nat) (hb : b < 2 ^ k) : (a * 2 ^ k) ||| b = a * 2 ^ k + b := by
  rw [← Nat.shiftLeft_eq, Nat.shiftLeft_add_eq_or_of_lt hb]

theorem encode_mabs_toNat (chr : ChrCode) : (encode (.mabs chr)).toNat = 0x11000000 + chr.toNat := by
  have hc := chr.isLt
  have h := or_low_bits 0x88 chr.toNat 21 hc
  simp only [encode, BitVec.toNat_or, BitVec.toNat_setWidth, BitVec.toNat_ofNat]
  rw [Nat.mod_eq_of_lt (by omega : chr.toNat < 2 ^ 32)]
  exact h

theorem or_idx_toNat (b : Nat) (hb : b * 4 < 2 ^ 32) (idx : WordIdx) :
    (BitVec.ofNat 32 (b * 4) ||| idx.setWidth 32).toNat = b * 4 + idx.toNat := by
  have hi := idx.isLt
  have h := or_low_bits b idx.toNat 2 hi
  simp only [BitVec.toNat_or, BitVec.toNat_setWidth, BitVec.toNat_ofNat]
  rw [Nat.mod_eq_of_lt (by omega : idx.toNat < 2 ^ 32), Nat.mod_eq_of_lt hb]
  exact h

theorem encode_aprime_toNat (idx : WordIdx) : (encode (.aprime idx)).toNat = 0x20000000 + idx.toNat :=
  or_idx_toNat 0x8000000 (by norm_num) idx

theorem encode_afold_toNat (idx : WordIdx) : (encode (.afold idx)).toNat = 0x21000000 + idx.toNat :=
  or_idx_toNat 0x8400000 (by norm_num) idx

/-- A mask of the high bits clears the low ones. -/
theorem and_high_mask_toNat (k : Nat) (hk : k ≤ 32) (cmd : Word) :
    (cmd &&& BitVec.ofNat 32 (2 ^ 32 - 2 ^ k)).toNat = cmd.toNat / 2 ^ k * 2 ^ k := by
  have hbit : ∀ i, (2 ^ 32 - 2 ^ k).testBit i = (decide (k ≤ i) && decide (i < 32)) := by
    intro i
    have h : 2 ^ 32 - 2 ^ k = 2 ^ k * (2 ^ (32 - k) - 1) := by
      rw [Nat.mul_sub, ← pow_add, Nat.add_sub_cancel' hk, mul_one]
    rw [h, Nat.testBit_two_pow_mul, Nat.testBit_two_pow_sub_one]
    by_cases hh : k ≤ i
    · have : (i - k < 32 - k) ↔ i < 32 := by omega
      simp [hh, this]
    · simp [hh]
  have hlt : 2 ^ 32 - 2 ^ k < 2 ^ 32 := by have : 0 < 2 ^ k := by positivity
                                           omega
  rw [BitVec.toNat_and, BitVec.toNat_ofNat, Nat.mod_eq_of_lt hlt, ← Nat.shiftRight_eq_div_pow, ← Nat.shiftLeft_eq]
  apply Nat.eq_of_testBit_eq
  intro i
  rw [Nat.testBit_and, hbit, Nat.testBit_shiftLeft, Nat.testBit_shiftRight]
  by_cases h1 : k ≤ i
  · by_cases h2 : i < 32
    · simp [h1, h2, Nat.add_sub_cancel' h1]
    · have : cmd.toNat.testBit i = false := Nat.testBit_lt_two_pow (lt_of_lt_of_le cmd.isLt (Nat.pow_le_pow_right (by norm_num) (by omega)))
      simp [h1, h2, Nat.add_sub_cancel' h1, this]
  · simp [h1]

end Sys2Proof
end

