-- ==== Sys2Proof/Laws/State.lean ====
section
/-!
SUPPORT. The small lemmas of the state operations: what each field is after each update, and what the port operations
give. No later proof unfolds a record update.
-/

namespace Sys2Proof.Machine

@[simp] theorem respond_n (s : State) (st : Status) (d : F64) : (s.respond st d).n = s.n := rfl
@[simp] theorem respond_s0 (s : State) (st : Status) (d : F64) : (s.respond st d).s0 = s.s0 := rfl
@[simp] theorem respond_s1 (s : State) (st : Status) (d : F64) : (s.respond st d).s1 = s.s1 := rfl
@[simp] theorem respond_s2 (s : State) (st : Status) (d : F64) : (s.respond st d).s2 = s.s2 := rfl
@[simp] theorem respond_c (s : State) (st : Status) (d : F64) : (s.respond st d).c = s.c := rfl
@[simp] theorem respond_inputs (s : State) (st : Status) (d : F64) : (s.respond st d).inputs = s.inputs := rfl
@[simp] theorem respond_responses (s : State) (st : Status) (d : F64) :
    (s.respond st d).responses = s.responses ++ [⟨st, d⟩] := rfl

@[simp] theorem succeed_n (s : State) (d : F64) : (s.succeed d).n = s.n := rfl
@[simp] theorem succeed_s0 (s : State) (d : F64) : (s.succeed d).s0 = s.s0 := rfl
@[simp] theorem succeed_s1 (s : State) (d : F64) : (s.succeed d).s1 = s.s1 := rfl
@[simp] theorem succeed_s2 (s : State) (d : F64) : (s.succeed d).s2 = s.s2 := rfl
@[simp] theorem succeed_c (s : State) (d : F64) : (s.succeed d).c = s.c := rfl
@[simp] theorem succeed_inputs (s : State) (d : F64) : (s.succeed d).inputs = s.inputs := rfl
@[simp] theorem succeed_responses (s : State) (d : F64) : (s.succeed d).responses = s.responses ++ [⟨.ok, d⟩] := rfl

@[simp] theorem fail_n (s : State) (st : Status) : (s.fail st).n = s.n := rfl
@[simp] theorem fail_s0 (s : State) (st : Status) : (s.fail st).s0 = s.s0 := rfl
@[simp] theorem fail_s1 (s : State) (st : Status) : (s.fail st).s1 = s.s1 := rfl
@[simp] theorem fail_s2 (s : State) (st : Status) : (s.fail st).s2 = s.s2 := rfl
@[simp] theorem fail_c (s : State) (st : Status) : (s.fail st).c = s.c := rfl
@[simp] theorem fail_inputs (s : State) (st : Status) : (s.fail st).inputs = s.inputs := rfl
@[simp] theorem fail_responses (s : State) (st : Status) : (s.fail st).responses = s.responses ++ [⟨st, 0#64⟩] := rfl

@[simp] theorem setN_n (s : State) (n : Word) : (s.setN n).n = n := rfl
@[simp] theorem setN_s0 (s : State) (n : Word) : (s.setN n).s0 = s.s0 := rfl
@[simp] theorem setN_s1 (s : State) (n : Word) : (s.setN n).s1 = s.s1 := rfl
@[simp] theorem setN_s2 (s : State) (n : Word) : (s.setN n).s2 = s.s2 := rfl
@[simp] theorem setN_c (s : State) (n : Word) : (s.setN n).c = s.c := rfl
@[simp] theorem setN_inputs (s : State) (n : Word) : (s.setN n).inputs = s.inputs := rfl
@[simp] theorem setN_responses (s : State) (n : Word) : (s.setN n).responses = s.responses := rfl

@[simp] theorem setC_n (s : State) (c : Word) : (s.setC c).n = s.n := rfl
@[simp] theorem setC_s0 (s : State) (c : Word) : (s.setC c).s0 = s.s0 := rfl
@[simp] theorem setC_s1 (s : State) (c : Word) : (s.setC c).s1 = s.s1 := rfl
@[simp] theorem setC_s2 (s : State) (c : Word) : (s.setC c).s2 = s.s2 := rfl
@[simp] theorem setC_c (s : State) (c : Word) : (s.setC c).c = c := rfl
@[simp] theorem setC_inputs (s : State) (c : Word) : (s.setC c).inputs = s.inputs := rfl
@[simp] theorem setC_responses (s : State) (c : Word) : (s.setC c).responses = s.responses := rfl

@[simp] theorem setAlea_n (s : State) (q : Alea) : (s.setAlea q).n = s.n := rfl
@[simp] theorem setAlea_s0 (s : State) (q : Alea) : (s.setAlea q).s0 = .written q.s0 := rfl
@[simp] theorem setAlea_s1 (s : State) (q : Alea) : (s.setAlea q).s1 = .written q.s1 := rfl
@[simp] theorem setAlea_s2 (s : State) (q : Alea) : (s.setAlea q).s2 = .written q.s2 := rfl
@[simp] theorem setAlea_c (s : State) (q : Alea) : (s.setAlea q).c = q.c := rfl
@[simp] theorem setAlea_inputs (s : State) (q : Alea) : (s.setAlea q).inputs = s.inputs := rfl
@[simp] theorem setAlea_responses (s : State) (q : Alea) : (s.setAlea q).responses = s.responses := rfl

@[simp] theorem applyReset_n (s : State) : s.applyReset.n = Config.nInit := rfl
@[simp] theorem applyReset_s0 (s : State) : s.applyReset.s0 = .unwritten := rfl
@[simp] theorem applyReset_s1 (s : State) : s.applyReset.s1 = .unwritten := rfl
@[simp] theorem applyReset_s2 (s : State) : s.applyReset.s2 = .unwritten := rfl
@[simp] theorem applyReset_c (s : State) : s.applyReset.c = Config.cInit := rfl
@[simp] theorem applyReset_inputs (s : State) : s.applyReset.inputs = s.inputs := rfl
@[simp] theorem applyReset_responses (s : State) : s.applyReset.responses = s.responses := rfl

@[simp] theorem setWord_n (s : State) (idx : WordIdx) (x : F64) : (s.setWord idx x).n = s.n := by
  unfold State.setWord; split_ifs <;> rfl
@[simp] theorem setWord_c (s : State) (idx : WordIdx) (x : F64) : (s.setWord idx x).c = s.c := by
  unfold State.setWord; split_ifs <;> rfl
@[simp] theorem setWord_inputs (s : State) (idx : WordIdx) (x : F64) : (s.setWord idx x).inputs = s.inputs := by
  unfold State.setWord; split_ifs <;> rfl
@[simp] theorem setWord_responses (s : State) (idx : WordIdx) (x : F64) :
    (s.setWord idx x).responses = s.responses := by
  unfold State.setWord; split_ifs <;> rfl

/-- Reading a state word after writing one: the value written at its index, the old word elsewhere. -/
theorem word_setWord (s : State) (i j : WordIdx) (x : F64) (h : legalIdx i) :
    (s.setWord i x).word j = if j = i then some (.written x) else s.word j := by
  have : i ≠ 3#2 := by simpa [legalIdx] using h
  unfold State.setWord State.word
  split_ifs <;> first | rfl | (exfalso; subst_vars; contradiction) | (exfalso; bv_omega)

/-- The index 3 names no state word; every other index does. -/
theorem word_eq_none_iff (s : State) (idx : WordIdx) : s.word idx = none ↔ idx = 3#2 := by
  unfold State.word
  have : idx = 0#2 ∨ idx = 1#2 ∨ idx = 2#2 ∨ idx = 3#2 := by revert idx; decide
  rcases this with h | h | h | h <;> subst h <;> simp

@[simp] theorem nextInput_nil (s : State) (h : s.inputs = []) : s.nextInput = none := by
  simp [State.nextInput, h]

@[simp] theorem nextInput_cons (s : State) (i : HostInput) (rest : List HostInput) (h : s.inputs = i :: rest) :
    s.nextInput = some (i, { s with inputs := rest }) := by
  simp [State.nextInput, h]

@[simp] theorem nextInput_issueNext (s : State) (i : HostInput) : (s.issueNext i).nextInput = some (i, s) := rfl

/-- All three flags are set exactly when the Alea state is there, and then it holds the three words and the carry. -/
theorem alea_eq_some_iff (s : State) (q : Alea) :
    s.alea = some q ↔
      s.s0 = .written q.s0 ∧ s.s1 = .written q.s1 ∧ s.s2 = .written q.s2 ∧ s.c = q.c := by
  unfold State.alea
  cases h0 : s.s0 <;> cases h1 : s.s1 <;> cases h2 : s.s2 <;> cases q <;> simp

/-- The Alea state is absent exactly when some word is unwritten. -/
theorem alea_eq_none_iff (s : State) :
    s.alea = none ↔ s.s0 = .unwritten ∨ s.s1 = .unwritten ∨ s.s2 = .unwritten := by
  unfold State.alea
  cases h0 : s.s0 <;> cases h1 : s.s1 <;> cases h2 : s.s2 <;> simp

end Sys2Proof.Machine
end

