-- ==== Sys2Proof/Laws/Exec.lean ====
section
/-!
SUPPORT. What each meaning answers, case by case, and what one step can do. The provers cite these instead of unfolding
`exec` and `step`.
-/

namespace Sys2Proof.Machine

theorem execAprime_legal (s : State) (idx : WordIdx) (h : idx ≠ 3#2) :
    execAprime idx s = .next ((s.setWord idx (hashValue s.n)).succeed 0#64) := by
  unfold execAprime
  cases hw : s.word idx with
  | none => exact absurd ((word_eq_none_iff s idx).mp hw) h
  | some w => rfl

theorem execAfold_of_written (s : State) (idx : WordIdx) (x : F64) (h : s.word idx = some (.written x)) :
    execAfold idx s = .next ((s.setWord idx (foldValue x s.n)).succeed 0#64) := by
  simp [execAfold, h]

theorem execAfold_of_unwritten (s : State) (idx : WordIdx) (h : s.word idx = some .unwritten) :
    execAfold idx s = .next (s.fail .unwrittenState) := by
  simp [execAfold, h]

theorem execDraw_of_alea (s : State) (q : Alea) (h : s.alea = some q) :
    execDraw s = .next ((s.setAlea (drawStep q)).succeed (drawStep q).s2) := by
  simp [execDraw, h]

theorem execU32_of_alea (s : State) (q : Alea) (h : s.alea = some q) :
    execU32 s = .next ((s.setAlea (drawStep q)).succeed (extractU32 (drawStep q).s2)) := by
  simp [execU32, h]

theorem execF53_of_alea (s : State) (q : Alea) (h : s.alea = some q) :
    execF53 s = .next ((s.setAlea (drawStep (drawStep q))).succeed
      (extractF53 (drawStep q).s2 (drawStep (drawStep q)).s2)) := by
  simp [execF53, h]

/-- The state after a draw, ready for another one. -/
theorem alea_setAlea (s : State) (q : Alea) : (s.setAlea q).alea = some q := rfl

/-- Everything a step can do: nothing without an input, the reset event, the decoder's error, or the decoded command. -/
theorem step_cases (s : State) :
    (s.inputs = [] ∧ step s = .next s) ∨
    (∃ rest, s.inputs = .reset :: rest ∧ step s = .next ({ s with inputs := rest }.applyReset)) ∨
    (∃ cmd rest e, s.inputs = .command cmd :: rest ∧ decode cmd = .error e ∧
      step s = .next ({ s with inputs := rest }.fail (rejectStatus e))) ∨
    (∃ cmd rest i, s.inputs = .command cmd :: rest ∧ decode cmd = .ok i ∧ step s = exec i { s with inputs := rest }) := by
  unfold step
  cases h : s.inputs with
  | nil => exact .inl ⟨rfl, by simp [h]⟩
  | cons i rest =>
    rw [nextInput_cons s i rest h]
    cases i with
    | reset => exact .inr (.inl ⟨rest, rfl, rfl⟩)
    | command cmd =>
      cases hd : decode cmd with
      | error e => exact .inr (.inr (.inl ⟨cmd, rest, e, rfl, hd, by simp [hd]⟩))
      | ok i => exact .inr (.inr (.inr ⟨cmd, rest, i, rfl, hd, by simp [hd]⟩))

/-- Everything a command can do to the state: fail with the registers as they were, or succeed with one of the writes of
the access matrix (R25). -/
theorem exec_cases (i : Instr) (s t : State) (h : exec i s = .next t) :
    (∃ st, st ≠ .ok ∧ t = s.fail st) ∨
    (∃ m d, (i = .minit ∨ ∃ chr, i = .mabs chr) ∧ t = (s.setN m).succeed d) ∨
    (∃ d, i = .mout ∧ t = s.succeed d) ∨
    (∃ idx x, legalIdx idx ∧ (i = .aprime idx ∨ (i = .afold idx ∧ ∃ y, s.word idx = some (.written y))) ∧
      t = (s.setWord idx x).succeed 0#64) ∨
    (i = .acinit ∧ t = (s.setC Config.cInit).succeed 0#64) ∨
    (∃ q q' d, (i = .draw ∨ i = .u32 ∨ i = .f53) ∧ s.alea = some q ∧ t = (s.setAlea q').succeed d) := by
  have legal : ∀ (idx : WordIdx) (w : StateWord), s.word idx = some w → legalIdx idx := by
    intro idx w hw
    have : idx ≠ 3#2 := fun hc => by rw [(word_eq_none_iff s idx).mpr hc] at hw; simp at hw
    simpa [legalIdx] using this
  cases i with
  | minit => obtain rfl := Host.Outcome.next.inj h; exact .inr (.inl ⟨_, _, .inl rfl, rfl⟩)
  | mabs chr => obtain rfl := Host.Outcome.next.inj h; exact .inr (.inl ⟨_, _, .inr ⟨chr, rfl⟩, rfl⟩)
  | mout => obtain rfl := Host.Outcome.next.inj h; exact .inr (.inr (.inl ⟨_, rfl, rfl⟩))
  | aprime idx =>
    simp only [exec, execAprime] at h
    split at h
    · obtain rfl := Host.Outcome.next.inj h; exact .inl ⟨_, by decide, rfl⟩
    · next w hw =>
      obtain rfl := Host.Outcome.next.inj h
      exact .inr (.inr (.inr (.inl ⟨idx, _, legal idx w hw, .inl rfl, rfl⟩)))
  | afold idx =>
    simp only [exec, execAfold] at h
    split at h
    · obtain rfl := Host.Outcome.next.inj h; exact .inl ⟨_, by decide, rfl⟩
    · obtain rfl := Host.Outcome.next.inj h; exact .inl ⟨_, by decide, rfl⟩
    · next x hw =>
      obtain rfl := Host.Outcome.next.inj h
      exact .inr (.inr (.inr (.inl ⟨idx, _, legal idx _ hw, .inr ⟨rfl, x, hw⟩, rfl⟩)))
  | acinit => obtain rfl := Host.Outcome.next.inj h; exact .inr (.inr (.inr (.inr (.inl ⟨rfl, rfl⟩))))
  | draw =>
    simp only [exec, execDraw] at h
    split at h
    · obtain rfl := Host.Outcome.next.inj h; exact .inl ⟨_, by decide, rfl⟩
    · next q hq =>
      obtain rfl := Host.Outcome.next.inj h
      exact .inr (.inr (.inr (.inr (.inr ⟨q, _, _, .inl rfl, hq, rfl⟩))))
  | u32 =>
    simp only [exec, execU32] at h
    split at h
    · obtain rfl := Host.Outcome.next.inj h; exact .inl ⟨_, by decide, rfl⟩
    · next q hq =>
      obtain rfl := Host.Outcome.next.inj h
      exact .inr (.inr (.inr (.inr (.inr ⟨q, _, _, .inr (.inl rfl), hq, rfl⟩))))
  | f53 =>
    simp only [exec, execF53] at h
    split at h
    · obtain rfl := Host.Outcome.next.inj h; exact .inl ⟨_, by decide, rfl⟩
    · next q hq =>
      obtain rfl := Host.Outcome.next.inj h
      exact .inr (.inr (.inr (.inr (.inr ⟨q, _, _, .inr (.inr rfl), hq, rfl⟩))))

/-- No command answers a fault or a refusal. -/
theorem exec_answers (i : Instr) (s : State) : ∃ t, exec i s = .next t := by
  cases i with
  | minit => exact ⟨_, rfl⟩
  | mabs chr => exact ⟨_, rfl⟩
  | mout => exact ⟨_, rfl⟩
  | aprime idx => simp only [exec, execAprime]; split <;> exact ⟨_, rfl⟩
  | afold idx => simp only [exec, execAfold]; split <;> exact ⟨_, rfl⟩
  | acinit => exact ⟨_, rfl⟩
  | draw => simp only [exec, execDraw]; split <;> exact ⟨_, rfl⟩
  | u32 => simp only [exec, execU32]; split <;> exact ⟨_, rfl⟩
  | f53 => simp only [exec, execF53]; split <;> exact ⟨_, rfl⟩

end Sys2Proof.Machine
end

