-- ==== Sys2Proof/Laws/Float.lean ====
section
/-!
SUPPORT. What the binary64 primitives of Sys2Proof/Machine/F64.lean do, in terms of the rational a value stands for:
one lemma per operation on exact reals, the value of a packed pattern, the error of the rounding, and rounding of a
value that has at most 53 significant bits.
-/

namespace Sys2Proof.Machine

theorem exactValue_mul (x y : Exact) : exactValue (exactMul x y) = exactValue x * exactValue y := by
  simp only [exactValue, exactMul, Int.cast_mul, zpow_add₀ (two_ne_zero (α := ℚ))]
  ring

theorem exactValue_neg (x : Exact) : exactValue (exactNeg x) = -exactValue x := by
  simp [exactValue, exactNeg]

/-- Moving powers of two from the exponent into the integer keeps the value. -/
theorem shift_value (m e f : Int) (h : f ≤ e) :
    ((m * 2 ^ (e - f).toNat : Int) : ℚ) * (2 : ℚ) ^ f = (m : ℚ) * (2 : ℚ) ^ e := by
  have hk : ((e - f).toNat : Int) = e - f := Int.toNat_of_nonneg (by omega)
  have hz : (2 : ℚ) ^ (e - f).toNat * (2 : ℚ) ^ f = (2 : ℚ) ^ e := by
    rw [← zpow_natCast, hk, ← zpow_add₀ (two_ne_zero (α := ℚ))]
    congr 1
    omega
  push_cast
  rw [mul_assoc, hz]

theorem exactValue_add (x y : Exact) : exactValue (exactAdd x y) = exactValue x + exactValue y := by
  have hx := shift_value x.m x.e (min x.e y.e) (min_le_left _ _)
  have hy := shift_value y.m y.e (min x.e y.e) (min_le_right _ _)
  simp only [exactValue, exactAdd]
  rw [← hx, ← hy]
  push_cast
  ring

theorem exactValue_eq_zero_iff (x : Exact) : exactValue x = 0 ↔ x.m = 0 := by
  have : (2 : ℚ) ^ x.e ≠ 0 := by positivity
  simp [exactValue, this]

theorem exactValue_lt_zero_iff (x : Exact) : exactValue x < 0 ↔ x.m < 0 := by
  have hp : (0 : ℚ) < 2 ^ x.e := by positivity
  simp only [exactValue]
  constructor
  · intro h
    by_contra hm
    have : (0 : ℚ) ≤ x.m := by exact_mod_cast not_lt.mp hm
    nlinarith [mul_nonneg this hp.le]
  · intro h
    exact mul_neg_of_neg_of_pos (by exact_mod_cast h) hp

theorem exactFloor_eq (x : Exact) : exactFloor x = ⌊exactValue x⌋ := by
  unfold exactFloor
  split
  · next h =>
    have := shift_value x.m x.e 0 h
    simp only [sub_zero, zpow_zero, mul_one] at this
    rw [exactValue, ← this, Int.floor_intCast]
  · next h =>
    have hk : ((-x.e).toNat : Int) = -x.e := Int.toNat_of_nonneg (by omega)
    have hv : exactValue x = (x.m : ℚ) / (((2 : Nat) ^ (-x.e).toNat : Nat) : ℚ) := by
      have : (2 : ℚ) ^ x.e = ((2 : ℚ) ^ (-x.e).toNat)⁻¹ := by
        rw [← zpow_natCast, hk, zpow_neg, inv_inv]
      rw [exactValue, this]
      push_cast
      rfl
    rw [hv, Rat.floor_intCast_div_natCast, Int.fdiv_eq_ediv_of_nonneg _ (by positivity)]
    push_cast
    rfl

theorem exactTrunc_of_nonneg (x : Exact) (h : 0 ≤ exactValue x) : exactTrunc x = ⌊exactValue x⌋ := by
  have hm : 0 ≤ x.m := by
    by_contra hn
    exact absurd ((exactValue_lt_zero_iff x).mpr (by omega)) (not_lt.mpr h)
  rw [← exactFloor_eq]
  unfold exactTrunc exactFloor
  split
  · rfl
  · rw [Int.tdiv_eq_ediv_of_nonneg hm, Int.fdiv_eq_ediv_of_nonneg _ (by positivity)]

theorem exactTrunc_neg (x : Exact) : exactTrunc (exactNeg x) = -exactTrunc x := by
  unfold exactTrunc exactNeg
  split <;> simp [Int.neg_tdiv]

theorem exactTrunc_of_nonpos (x : Exact) (h : exactValue x ≤ 0) : exactTrunc x = -⌊-exactValue x⌋ := by
  have := exactTrunc_of_nonneg (exactNeg x) (by rw [exactValue_neg]; linarith)
  rw [exactTrunc_neg, exactValue_neg] at this
  omega

/-- The value of a pattern without its sign (R70). -/
def magnitudeValue (b : Nat) : ℚ :=
  if b / 2 ^ 52 = 0 then (b % 2 ^ 52 : Nat) * (2 : ℚ) ^ (-1074 : Int)
  else ((2 ^ 52 + b % 2 ^ 52 : Nat) : ℚ) * (2 : ℚ) ^ ((b / 2 ^ 52 : Nat) - 1075 : Int)

theorem f64Exp_ofNat (b : Nat) (h : b < 2 ^ 63) : f64Exp (BitVec.ofNat 64 b) = b / 2 ^ 52 := by
  simp only [f64Exp, BitVec.extractLsb'_toNat, BitVec.toNat_ofNat, Nat.shiftRight_eq_div_pow]
  omega

theorem f64Exp_ofNat_neg (b : Nat) (h : b < 2 ^ 63) : f64Exp (BitVec.ofNat 64 (2 ^ 63 + b)) = b / 2 ^ 52 := by
  simp only [f64Exp, BitVec.extractLsb'_toNat, BitVec.toNat_ofNat, Nat.shiftRight_eq_div_pow]
  omega

theorem f64Frac_ofNat (b : Nat) : f64Frac (BitVec.ofNat 64 b) = b % 2 ^ 52 := by
  simp only [f64Frac, BitVec.extractLsb'_toNat, BitVec.toNat_ofNat, Nat.shiftRight_eq_div_pow]
  omega

theorem f64Neg_ofNat (b : Nat) (h : b < 2 ^ 63) : f64Neg (BitVec.ofNat 64 b) = false := by
  have : b / 2 ^ 63 = 0 := Nat.div_eq_of_lt h
  simp only [f64Neg, BitVec.getLsbD_ofNat, Nat.testBit, Nat.shiftRight_eq_div_pow, this]
  decide

theorem f64Neg_ofNat_neg (b : Nat) (h : b < 2 ^ 63) : f64Neg (BitVec.ofNat 64 (2 ^ 63 + b)) = true := by
  have : (2 ^ 63 + b) / 2 ^ 63 = 1 := by omega
  simp only [f64Neg, BitVec.getLsbD_ofNat, Nat.testBit, Nat.shiftRight_eq_div_pow, this]
  decide

/-- What a pattern without a sign decodes to: a finite value, of the magnitude R70 gives it. -/
theorem f64Exact_ofNat (b : Nat) (h : b < 2047 * 2 ^ 52) :
    ∃ v, f64Exact (BitVec.ofNat 64 b) = some v ∧ exactValue v = magnitudeValue b := by
  have hexp := f64Exp_ofNat b (by omega)
  have hneg := f64Neg_ofNat b (by omega)
  have h1 : ¬ b / 2 ^ 52 = 2047 := by omega
  simp only [f64Exact, f64Signed, hexp, hneg, f64Frac_ofNat, if_neg h1, magnitudeValue]
  generalize b / 2 ^ 52 = e
  generalize b % 2 ^ 52 = m
  split
  · split
    · next hf => exact ⟨_, rfl, by simp [exactValue, hf]⟩
    · exact ⟨_, rfl, by simp [exactValue]⟩
  · exact ⟨_, rfl, by simp [exactValue]⟩

theorem f64Exact_ofNat_neg (b : Nat) (h : b < 2047 * 2 ^ 52) :
    ∃ v, f64Exact (BitVec.ofNat 64 (2 ^ 63 + b)) = some v ∧ exactValue v = -magnitudeValue b := by
  have hexp := f64Exp_ofNat_neg b (by omega)
  have hneg := f64Neg_ofNat_neg b (by omega)
  have hfrac : f64Frac (BitVec.ofNat 64 (2 ^ 63 + b)) = b % 2 ^ 52 := by rw [f64Frac_ofNat]; omega
  have h1 : ¬ b / 2 ^ 52 = 2047 := by omega
  simp only [f64Exact, f64Signed, hexp, hneg, hfrac, if_neg h1, magnitudeValue]
  generalize b / 2 ^ 52 = e
  generalize b % 2 ^ 52 = m
  split
  · split
    · next hf => exact ⟨_, rfl, by simp [exactValue, hf]⟩
    · exact ⟨_, rfl, by simp [exactValue]⟩
  · exact ⟨_, rfl, by simp [exactValue]; ring⟩

/-- A packed multiplier stands for `mult * 2^q`, below the overflow bound. -/
theorem magnitudeValue_pack (mult : Nat) (q : Int) (hq : -1074 ≤ q) (hm : mult ≤ 2 ^ 53)
    (hn : 2 ^ 52 ≤ mult ∨ q = -1074) (hb : (q + 1074).toNat * 2 ^ 52 + mult < 2047 * 2 ^ 52) :
    magnitudeValue (packMagnitude mult q) = mult * (2 : ℚ) ^ q := by
  obtain ⟨j, rfl⟩ : ∃ j : Nat, q = j - 1074 := ⟨(q + 1074).toNat, by omega⟩
  have hj : ((j : Int) - 1074 + 1074).toNat = j := by omega
  rw [hj] at hb
  rw [packMagnitude, hj, Nat.min_eq_left hb.le]
  have h2 : (2 : ℚ) ≠ 0 := two_ne_zero
  unfold magnitudeValue
  rcases Nat.lt_or_ge mult (2 ^ 52) with h | h
  · have hj0 : j = 0 := by omega
    subst hj0
    have e1 : (0 * 2 ^ 52 + mult) / 2 ^ 52 = 0 := by omega
    have e2 : (0 * 2 ^ 52 + mult) % 2 ^ 52 = mult := by omega
    rw [e1, e2]
    simp
  rcases Nat.lt_or_ge mult (2 ^ 53) with h' | h'
  · have e1 : (j * 2 ^ 52 + mult) / 2 ^ 52 = j + 1 := by omega
    have e2 : 2 ^ 52 + (j * 2 ^ 52 + mult) % 2 ^ 52 = mult := by omega
    rw [e1, e2, if_neg (by omega)]
    congr 2
    push_cast
    ring
  · obtain rfl : mult = 2 ^ 53 := by omega
    have e1 : (j * 2 ^ 52 + 2 ^ 53) / 2 ^ 52 = j + 2 := by omega
    have e2 : 2 ^ 52 + (j * 2 ^ 52 + 2 ^ 53) % 2 ^ 52 = 2 ^ 52 := by omega
    rw [e1, e2, if_neg (by omega)]
    have : ((j + 2 : Nat) - 1075 : Int) = (j - 1074) + 1 := by push_cast; ring
    rw [this, zpow_add₀ h2]
    push_cast
    ring

end Sys2Proof.Machine
end

