-- ==== Sys2Proof/Laws/PerInstr.lean ====
section
/-!
SUPPORT. The family `RowMatch` (LAWS.json): the word of a command is an instance of the opcode-map row of its mnemonic
(spec/30_encoding.md R56), one lemma per constructor.
-/

namespace Sys2Proof.Laws.RowMatch

/-- Some row of the opcode map has the command's mnemonic and covers its word. -/
def Statement (i : Sys2Proof.Instr) : Prop :=
  ∃ row ∈ Sys2Proof.opcodeTable, row.mnemonic = Sys2Proof.rowMnemonic i ∧ row.covers (Sys2Proof.encode i) = true

theorem minit : Statement .minit := by unfold Statement; decide

theorem mabs (chr : Sys2Proof.ChrCode) : Statement (.mabs chr) := by
  refine ⟨⟨"MABS", 0xFFE00000#32, 0x11000000#32⟩, by simp [Sys2Proof.opcodeTable], rfl, ?_⟩
  have hc := chr.isLt
  rw [Sys2Proof.OpcodeRow.covers, beq_iff_eq]
  apply BitVec.eq_of_toNat_eq
  have h := Sys2Proof.and_high_mask_toNat 21 (by norm_num) (Sys2Proof.encode (.mabs chr))
  rw [Sys2Proof.encode_mabs_toNat] at h
  exact h.trans (by rw [BitVec.toNat_ofNat]; omega)

theorem mout : Statement .mout := by unfold Statement; decide

theorem aprime (idx : Sys2Proof.WordIdx) : Statement (.aprime idx) := by
  unfold Statement
  revert idx
  decide

theorem afold (idx : Sys2Proof.WordIdx) : Statement (.afold idx) := by
  unfold Statement
  revert idx
  decide

theorem acinit : Statement .acinit := by unfold Statement; decide

theorem draw : Statement .draw := by unfold Statement; decide

theorem u32 : Statement .u32 := by unfold Statement; decide

theorem f53 : Statement .f53 := by unfold Statement; decide

end Sys2Proof.Laws.RowMatch
end

