-- ==== Sys2Proof/Laws/Rounding.lean ====
section
/-!
SUPPORT. What `rn` does: the multiplier it packs is the nearest one with ties to even, it depends on the value alone and
not on how the value is written, and a value of at most 53 significant bits is kept. The callers cite these and never
unfold `rn`.
-/

namespace Sys2Proof.Machine

theorem f64Is_of_exact {x : F64} {w : Exact} (h : f64Exact x = some w) : f64Is x (exactValue w) := by
  constructor
  · intro he
    simp [f64Exact, he] at h
  · simp [f64Value, h]

/-- A finite value has an exact real behind it. -/
theorem exact_of_f64Is {x : F64} {v : ℚ} (h : f64Is x v) : ∃ w, f64Exact x = some w ∧ exactValue w = v := by
  obtain ⟨hf, hv⟩ := h
  cases hx : f64Exact x with
  | none =>
    simp only [f64Exact, if_neg hf] at hx
    split at hx
    · split at hx <;> simp at hx
    · simp at hx
  | some w => exact ⟨w, rfl, by simpa [f64Value, hx] using hv⟩

theorem floor_log2 (a : Nat) (e : Int) (ha : a ≠ 0) : Int.log 2 ((a : ℚ) * 2 ^ e) = (a.log2 : Int) + e := by
  have h2 : (1 : Nat) < 2 := by norm_num
  have hv : (0 : ℚ) < (a : ℚ) * 2 ^ e := by positivity
  have lo : (2 : ℚ) ^ (a.log2 : Int) ≤ a := by
    rw [zpow_natCast]
    exact_mod_cast Nat.log2_self_le ha
  have hi : (a : ℚ) < (2 : ℚ) ^ ((a.log2 : Int) + 1) := by
    have : a < 2 ^ (a.log2 + 1) := Nat.lt_log2_self
    rw [show ((a.log2 : Int) + 1) = ((a.log2 + 1 : Nat) : Int) by push_cast; rfl, zpow_natCast]
    exact_mod_cast this
  apply le_antisymm
  · apply Int.lt_add_one_iff.mp
    rw [← Int.lt_zpow_iff_log_lt h2 hv]
    rw [show (a.log2 : Int) + e + 1 = ((a.log2 : Int) + 1) + e by ring, zpow_add₀ (by norm_num)]
    push_cast
    exact mul_lt_mul_of_pos_right hi (by positivity)
  · rw [← Int.zpow_le_iff_le_log h2 hv, zpow_add₀ (by norm_num)]
    push_cast
    exact mul_le_mul_of_nonneg_right lo (by positivity)

/-- `M * u` is a multiple of the quantum `u` nearest to `v`, the even one on a tie (R71). -/
def NearestEven (v u : ℚ) (M : ℤ) : Prop := 2 * |v - M * u| ≤ u ∧ (2 * |v - M * u| = u → Even M)

/-- The nearest multiple with ties to even is unique. -/
theorem nearestEven_unique {v u : ℚ} (hu : 0 < u) {M N : ℤ} (hM : NearestEven v u M) (hN : NearestEven v u N) :
    M = N := by
  obtain ⟨m1, m2⟩ := hM
  obtain ⟨n1, n2⟩ := hN
  have key : |((M - N : ℤ) : ℚ)| * u ≤ u := by
    have : ((M - N : ℤ) : ℚ) * u = (v - N * u) - (v - M * u) := by push_cast; ring
    calc |((M - N : ℤ) : ℚ)| * u = |((M - N : ℤ) : ℚ) * u| := by rw [abs_mul, abs_of_pos hu]
      _ ≤ |v - N * u| + |v - M * u| := by rw [this]; exact abs_sub _ _
      _ ≤ u := by linarith
  have hle : |M - N| ≤ 1 := by
    have : |((M - N : ℤ) : ℚ)| ≤ 1 := by
      by_contra h
      push Not at h
      nlinarith
    exact_mod_cast this
  by_contra hne
  have hcases : M = N + 1 ∨ N = M + 1 := by
    rcases abs_le.mp hle with ⟨h1, h2⟩
    omega
  have tight : 2 * |v - M * u| = u ∧ 2 * |v - N * u| = u := by
    have ha := abs_nonneg (v - M * u)
    have hsum : u ≤ |v - M * u| + |v - N * u| := by
      have : |(v - M * u) - (v - N * u)| = u := by
        rcases hcases with h | h
        · rw [h]; push_cast
          rw [show v - (N + 1) * u - (v - N * u) = -u by ring, abs_neg, abs_of_pos hu]
        · rw [h]; push_cast
          rw [show v - M * u - (v - (M + 1) * u) = u by ring, abs_of_pos hu]
      calc u = |(v - M * u) - (v - N * u)| := this.symm
        _ ≤ |v - M * u| + |v - N * u| := abs_sub _ _
    constructor <;> linarith
  have e1 := m2 tight.1
  have e2 := n2 tight.2
  rcases hcases with h | h <;> (rw [Int.even_iff] at e1 e2; omega)

theorem roundHalfEven_nearest (a k : Nat) :
    NearestEven (a : ℚ) ((2 ^ k : Nat) : ℚ) (roundHalfEven a k : Nat) := by
  have hp : 0 < 2 ^ k := by positivity
  have hdiv := Nat.div_add_mod a (2 ^ k)
  have hmod := Nat.mod_lt a hp
  set p := 2 ^ k with hpdef
  have ha : (a : ℚ) = (a / p : Nat) * (p : ℚ) + (a % p : Nat) := by
    have : a = (a / p) * p + a % p := by rw [mul_comm]; exact hdiv.symm
    exact_mod_cast this
  have hr0 : (0 : ℚ) ≤ (a % p : Nat) := by positivity
  have hrp : ((a % p : Nat) : ℚ) < p := by exact_mod_cast hmod
  unfold NearestEven roundHalfEven
  rw [← hpdef]
  dsimp only
  split
  · next h =>
    have e : (a : ℚ) - ((a / p + 1 : Nat) : ℤ) * (p : ℚ) = -((p : ℚ) - (a % p : Nat)) := by
      rw [ha, Int.cast_natCast, Nat.cast_add, Nat.cast_one]; ring
    rw [e, abs_neg, abs_of_pos (by linarith)]
    rcases h with h | ⟨h, hodd⟩
    · have hq : (p : ℚ) < 2 * (a % p : Nat) := by exact_mod_cast h
      exact ⟨by linarith, fun hh => by linarith⟩
    · have hq : 2 * ((a % p : Nat) : ℚ) = p := by exact_mod_cast h
      refine ⟨by linarith, fun _ => ?_⟩
      rw [Int.even_iff]
      omega
  · next h =>
    push Not at h
    have e : (a : ℚ) - ((a / p : Nat) : ℤ) * (p : ℚ) = (a % p : Nat) := by
      rw [ha, Int.cast_natCast]; ring
    rw [e, abs_of_nonneg hr0]
    have hq : 2 * ((a % p : Nat) : ℚ) ≤ p := by exact_mod_cast h.1
    refine ⟨hq, fun hh => ?_⟩
    have hh' : 2 * (a % p) = p := by exact_mod_cast hh
    have := h.2 hh'
    rw [Int.even_iff]
    omega

/-- The multiplier is the nearest one, ties to even, to the real `a * 2^e` over the quantum `2^q`. -/
theorem roundToQuantum_nearest (a : Nat) (e q : Int) :
    NearestEven ((a : ℚ) * 2 ^ e) (2 ^ q) (roundToQuantum a e q : Nat) := by
  unfold roundToQuantum
  split
  · next h =>
    have hv : (a : ℚ) * 2 ^ e = ((a * 2 ^ (e - q).toNat : Nat) : ℤ) * (2 : ℚ) ^ q := by
      have := shift_value a e q h
      push_cast at this ⊢
      exact this.symm
    have hz : (a : ℚ) * 2 ^ e - ((a * 2 ^ (e - q).toNat : Nat) : ℤ) * (2 : ℚ) ^ q = 0 := by rw [← hv]; ring
    have hpos : (0 : ℚ) < 2 ^ q := by positivity
    unfold NearestEven
    rw [hz]
    exact ⟨by simpa using hpos.le, fun hh => by simp at hh; exact absurd hh hpos.ne⟩
  · next h =>
    obtain ⟨n1, n2⟩ := roundHalfEven_nearest a (q - e).toNat
    have hpos : (0 : ℚ) < 2 ^ e := by positivity
    have hq : (2 : ℚ) ^ q = ((2 ^ (q - e).toNat : Nat) : ℚ) * 2 ^ e := by
      have hk : ((q - e).toNat : Int) = q - e := Int.toNat_of_nonneg (by omega)
      push_cast
      rw [← zpow_natCast, hk, ← zpow_add₀ (by norm_num)]
      congr 1
      omega
    have hd : ∀ M : ℤ, |(a : ℚ) * 2 ^ e - M * 2 ^ q| = |(a : ℚ) - M * ((2 ^ (q - e).toNat : Nat) : ℚ)| * 2 ^ e := by
      intro M
      rw [hq, ← abs_of_pos hpos, ← abs_mul, abs_of_pos hpos]
      congr 1
      ring
    unfold NearestEven
    rw [hd]
    constructor
    · rw [hq]
      nlinarith
    · intro hh
      apply n2
      rw [hq] at hh
      have : (2 : ℚ) ^ e ≠ 0 := hpos.ne'
      have := mul_right_cancel₀ this (by linarith : (2 * |(a : ℚ) - ((roundHalfEven a (q - e).toNat : Nat) : ℤ) * ((2 ^ (q - e).toNat : Nat) : ℚ)|) * 2 ^ e = ((2 ^ (q - e).toNat : Nat) : ℚ) * 2 ^ e)
      exact this

/-- A real that is a multiple of the quantum is that multiple. -/
theorem roundToQuantum_of_multiple (a : Nat) (e q : Int) (m : Nat) (h : (a : ℚ) * 2 ^ e = m * 2 ^ q) :
    roundToQuantum a e q = m := by
  have hpos : (0 : ℚ) < 2 ^ q := by positivity
  have hm : NearestEven ((a : ℚ) * 2 ^ e) (2 ^ q) (m : ℤ) := by
    unfold NearestEven
    rw [h]
    simp only [Int.cast_natCast, sub_self, abs_zero, mul_zero]
    exact ⟨hpos.le, fun hh => absurd hh hpos.ne⟩
  exact_mod_cast nearestEven_unique hpos (roundToQuantum_nearest a e q) hm

/-- The exponent of the quantum of R71 for the real `a * 2^e`. -/
def quantumExp (a : Nat) (e : Int) : Int := max ((a.log2 : Int) + e) (-1022) - 52

theorem roundToQuantum_le (a : Nat) (e q : Int) (h : (a : ℚ) * 2 ^ e < 2 ^ (q + 53)) :
    roundToQuantum a e q ≤ 2 ^ 53 := by
  obtain ⟨n1, -⟩ := roundToQuantum_nearest a e q
  have hpos : (0 : ℚ) < 2 ^ q := by positivity
  rw [zpow_add₀ (by norm_num)] at h
  by_contra hc
  push Not at hc
  have hc' : ((2 : ℚ) ^ (53 : ℤ)) + 1 ≤ (roundToQuantum a e q : Nat) := by
    have : 2 ^ 53 + 1 ≤ roundToQuantum a e q := hc
    exact_mod_cast this
  have := (abs_le.mp (by linarith : |(a : ℚ) * 2 ^ e - ((roundToQuantum a e q : Nat) : ℤ) * 2 ^ q| ≤ 2 ^ q / 2)).1
  push_cast at this
  nlinarith

theorem roundToQuantum_ge (a : Nat) (e q : Int) (h : (2 : ℚ) ^ (q + 52) ≤ (a : ℚ) * 2 ^ e) :
    2 ^ 52 ≤ roundToQuantum a e q := by
  obtain ⟨n1, -⟩ := roundToQuantum_nearest a e q
  have hpos : (0 : ℚ) < 2 ^ q := by positivity
  rw [zpow_add₀ (by norm_num)] at h
  by_contra hc
  push Not at hc
  have hc' : ((roundToQuantum a e q : Nat) : ℚ) + 1 ≤ (2 : ℚ) ^ (52 : ℤ) := by
    have : roundToQuantum a e q + 1 ≤ 2 ^ 52 := hc
    exact_mod_cast this
  have := (abs_le.mp (by linarith : |(a : ℚ) * 2 ^ e - ((roundToQuantum a e q : Nat) : ℤ) * 2 ^ q| ≤ 2 ^ q / 2)).2
  push_cast at this
  nlinarith

/-- The magnitude `rn` packs, for a real below `2^1023`: in range of the format, and of value `mult * 2^q`. -/
theorem rnMagnitude_value (a : Nat) (e : Int) (ha : a ≠ 0) (hb : (a.log2 : Int) + e < 1023) :
    rnMagnitude a e < 2047 * 2 ^ 52 ∧
      magnitudeValue (rnMagnitude a e) = (roundToQuantum a e (quantumExp a e) : Nat) * (2 : ℚ) ^ quantumExp a e := by
  have hq : rnMagnitude a e = packMagnitude (roundToQuantum a e (quantumExp a e)) (quantumExp a e) := rfl
  have hv : (0 : ℚ) < (a : ℚ) * 2 ^ e := by positivity
  have hlog := floor_log2 a e ha
  have hle : roundToQuantum a e (quantumExp a e) ≤ 2 ^ 53 := by
    apply roundToQuantum_le
    have h1 : (a : ℚ) * 2 ^ e < (2 : ℚ) ^ ((a.log2 : Int) + e + 1) := by
      have := (Int.lt_zpow_iff_log_lt (b := 2) (by norm_num) hv (x := (a.log2 : Int) + e + 1)).mpr (by omega)
      exact_mod_cast this
    refine lt_of_lt_of_le h1 (zpow_le_zpow_right₀ (by norm_num) ?_)
    unfold quantumExp
    omega
  have hge : 2 ^ 52 ≤ roundToQuantum a e (quantumExp a e) ∨ quantumExp a e = -1074 := by
    rcases le_total (-1022) ((a.log2 : Int) + e) with h | h
    · left
      apply roundToQuantum_ge
      have h1 : (2 : ℚ) ^ ((a.log2 : Int) + e) ≤ (a : ℚ) * 2 ^ e := by
        have := (Int.zpow_le_iff_le_log (b := 2) (by norm_num) hv (x := (a.log2 : Int) + e)).mpr (by omega)
        exact_mod_cast this
      rw [quantumExp, max_eq_left h]
      simpa using h1
    · right
      rw [quantumExp, max_eq_right h]
      norm_num
  have hlow : -1074 ≤ quantumExp a e := by unfold quantumExp; omega
  have hbound : (quantumExp a e + 1074).toNat * 2 ^ 52 + roundToQuantum a e (quantumExp a e) < 2047 * 2 ^ 52 := by
    have : (quantumExp a e + 1074).toNat ≤ 2044 := by unfold quantumExp; omega
    omega
  rw [hq]
  refine ⟨?_, magnitudeValue_pack _ _ hlow hle hge hbound⟩
  rw [packMagnitude]
  exact lt_of_le_of_lt (Nat.min_le_left _ _) hbound

theorem rnMagnitude_congr {a b : Nat} {e f : Int} (ha : a ≠ 0) (hb : b ≠ 0)
    (h : (a : ℚ) * 2 ^ e = (b : ℚ) * 2 ^ f) : rnMagnitude a e = rnMagnitude b f := by
  have hq : quantumExp a e = quantumExp b f := by
    unfold quantumExp
    rw [← floor_log2 a e ha, ← floor_log2 b f hb, h]
  have hpos : (0 : ℚ) < 2 ^ quantumExp b f := by positivity
  have hm : roundToQuantum a e (quantumExp b f) = roundToQuantum b f (quantumExp b f) := by
    have h1 := roundToQuantum_nearest a e (quantumExp b f)
    rw [h] at h1
    exact_mod_cast nearestEven_unique hpos h1 (roundToQuantum_nearest b f (quantumExp b f))
  change packMagnitude (roundToQuantum a e (quantumExp a e)) (quantumExp a e)
    = packMagnitude (roundToQuantum b f (quantumExp b f)) (quantumExp b f)
  rw [hq, hm]

/-- `rn` depends on the value alone. -/
theorem rn_congr {x y : Exact} (h : exactValue x = exactValue y) : rn x = rn y := by
  have hz : x.m = 0 ↔ y.m = 0 := by rw [← exactValue_eq_zero_iff, ← exactValue_eq_zero_iff, h]
  have hn : x.m < 0 ↔ y.m < 0 := by rw [← exactValue_lt_zero_iff, ← exactValue_lt_zero_iff, h]
  unfold rn
  by_cases hx : x.m = 0
  · rw [if_pos hx, if_pos (hz.mp hx)]
  have hy : y.m ≠ 0 := fun hc => hx (hz.mpr hc)
  rw [if_neg hx, if_neg hy]
  have habs : |exactValue x| = |exactValue y| := by rw [h]
  have hmag : rnMagnitude x.m.natAbs x.e = rnMagnitude y.m.natAbs y.e := by
    apply rnMagnitude_congr (by omega) (by omega)
    have e1 : ∀ z : Exact, |exactValue z| = (z.m.natAbs : ℚ) * 2 ^ z.e := by
      intro z
      rw [exactValue, abs_mul, abs_of_pos (by positivity : (0 : ℚ) < 2 ^ z.e), Nat.cast_natAbs, Int.cast_abs]
    rw [← e1, ← e1, habs]
  by_cases hs : x.m < 0
  · rw [if_pos hs, if_pos (hn.mp hs), hmag]
  · rw [if_neg hs, if_neg (fun hc => hs (hn.mpr hc)), hmag]

/-- The value of `rn x` for a non-zero `x` below `2^1023`: the nearest multiple of the quantum, with the sign of `x`. -/
theorem rn_value (x : Exact) (hx : x.m ≠ 0) (hb : (x.m.natAbs.log2 : Int) + x.e < 1023) :
    f64Is (rn x) ((x.m.sign : ℚ) *
      ((roundToQuantum x.m.natAbs x.e (quantumExp x.m.natAbs x.e) : Nat) * (2 : ℚ) ^ quantumExp x.m.natAbs x.e)) := by
  obtain ⟨h1, h2⟩ := rnMagnitude_value x.m.natAbs x.e (by omega) hb
  rw [← h2]
  unfold rn
  rw [if_neg hx]
  split
  · next hneg =>
    obtain ⟨v, hv, hval⟩ := f64Exact_ofNat_neg _ h1
    rw [Int.sign_eq_neg_one_of_neg hneg]
    have := f64Is_of_exact hv
    rw [hval] at this
    simpa using this
  · next hnn =>
    obtain ⟨v, hv, hval⟩ := f64Exact_ofNat _ h1
    rw [Int.sign_eq_one_of_pos (by omega)]
    have := f64Is_of_exact hv
    rw [hval] at this
    simpa using this

theorem f64Is_zero : f64Is 0#64 0 := by
  constructor
  · unfold f64Finite; decide
  · have : f64Exact 0#64 = some ⟨0, 0⟩ := by decide
    simp [f64Value, this, exactValue]

theorem rn_zero (x : Exact) (h : exactValue x = 0) : rn x = 0#64 := by
  unfold rn
  rw [if_pos ((exactValue_eq_zero_iff x).mp h)]

/-- A value of at most 53 significant bits, no finer than `2^-1074` and below `2^1023`, is kept (R71). -/
theorem rn_exact (m e : Int) (hm : m.natAbs < 2 ^ 53) (he : -1074 ≤ e) (hb : e ≤ 970) :
    f64Is (rn ⟨m, e⟩) ((m : ℚ) * 2 ^ e) := by
  by_cases h0 : m = 0
  · subst h0
    rw [rn_zero ⟨0, e⟩ (by simp [exactValue])]
    simpa using f64Is_zero
  have hlog : m.natAbs.log2 < 53 := (Nat.log2_lt (by omega)).mpr hm
  have key := rn_value ⟨m, e⟩ h0 (by simp only; omega)
  dsimp only at key
  obtain ⟨j, hj⟩ : ∃ j : Nat, e = quantumExp m.natAbs e + j :=
    ⟨(e - quantumExp m.natAbs e).toNat, by unfold quantumExp; omega⟩
  have hround : roundToQuantum m.natAbs e (quantumExp m.natAbs e) = m.natAbs * 2 ^ j := by
    apply roundToQuantum_of_multiple
    conv_lhs => rw [hj, zpow_add₀ (by norm_num)]
    push_cast
    rw [zpow_natCast]
    ring
  rw [hround] at key
  convert key using 1
  conv_lhs => rw [hj, zpow_add₀ (by norm_num), zpow_natCast]
  have hs : (m : ℚ) = (m.sign : ℚ) * (m.natAbs : ℚ) := by
    rw [← Int.cast_natCast, ← Int.cast_mul, Int.sign_mul_natAbs]
  conv_lhs => rw [hs]
  push_cast
  ring

/-- Rounding does not pass a value the format holds: a real not above `m * 2^j`, whose quantum is no coarser than `2^j`,
rounds to a value not above it. -/
theorem roundToQuantum_le_of_le (a : Nat) (e j : Int) (m : Nat) (hq : quantumExp a e ≤ j)
    (h : (a : ℚ) * 2 ^ e ≤ m * 2 ^ j) :
    ((roundToQuantum a e (quantumExp a e) : Nat) : ℚ) * 2 ^ quantumExp a e ≤ m * 2 ^ j := by
  obtain ⟨n1, -⟩ := roundToQuantum_nearest a e (quantumExp a e)
  generalize roundToQuantum a e (quantumExp a e) = r at n1 ⊢
  obtain ⟨k, hk⟩ : ∃ k : Nat, j = quantumExp a e + k := ⟨(j - quantumExp a e).toNat, by omega⟩
  have hpos : (0 : ℚ) < 2 ^ quantumExp a e := by positivity
  rw [hk, zpow_add₀ (by norm_num), zpow_natCast] at h ⊢
  generalize (2 : ℚ) ^ quantumExp a e = u at n1 h hpos ⊢
  have h1 := (abs_le.mp (by linarith : |(a : ℚ) * 2 ^ e - ((r : ℕ) : ℤ) * u| ≤ u / 2)).1
  rw [Int.cast_natCast] at h1
  have h2 : (r : ℚ) * u ≤ (m * 2 ^ k + 1 / 2) * u := by nlinarith
  have h3 : (r : ℚ) ≤ m * 2 ^ k + 1 / 2 := le_of_mul_le_mul_right h2 hpos
  have h4 : r ≤ m * 2 ^ k := by
    by_contra hc
    have : m * 2 ^ k + 1 ≤ r := by omega
    have : ((m * 2 ^ k + 1 : Nat) : ℚ) ≤ r := by exact_mod_cast this
    push_cast at this
    linarith
  have h5 : (r : ℚ) ≤ m * 2 ^ k := by exact_mod_cast h4
  nlinarith

/-- `fmul` of finite operands is `rn` of any exact real of the product's value (R71). -/
theorem fmul_eq {a b : F64} {u v : ℚ} (ha : f64Is a u) (hb : f64Is b v) (z : Exact) (hz : exactValue z = u * v) :
    fmul a b = rn z := by
  obtain ⟨x, hx, hxv⟩ := exact_of_f64Is ha
  obtain ⟨y, hy, hyv⟩ := exact_of_f64Is hb
  simp only [fmul, hx, hy]
  exact rn_congr (by rw [exactValue_mul, hxv, hyv, hz])

/-- `fadd` of finite operands, not both `-0`, is `rn` of any exact real of the sum's value (R72). -/
theorem fadd_eq {a b : F64} {u v : ℚ} (ha : f64Is a u) (hb : f64Is b v) (hn : a ≠ negZero ∨ b ≠ negZero) (z : Exact)
    (hz : exactValue z = u + v) : fadd a b = rn z := by
  obtain ⟨x, hx, hxv⟩ := exact_of_f64Is ha
  obtain ⟨y, hy, hyv⟩ := exact_of_f64Is hb
  simp only [fadd, hx, hy, if_neg (by tauto : ¬(a = negZero ∧ b = negZero))]
  exact rn_congr (by rw [exactValue_add, hxv, hyv, hz])

/-- `fsub` of finite operands is `rn` of any exact real of the difference's value (R73). -/
theorem fsub_eq {a b : F64} {u v : ℚ} (ha : f64Is a u) (hb : f64Is b v) (z : Exact) (hz : exactValue z = u - v) :
    fsub a b = rn z := by
  obtain ⟨x, hx, hxv⟩ := exact_of_f64Is ha
  obtain ⟨y, hy, hyv⟩ := exact_of_f64Is hb
  simp only [fsub, hx, hy]
  exact rn_congr (by rw [exactValue_add, exactValue_neg, hxv, hyv, hz]; ring)

/-- No result of `rn` is `-0`. -/
theorem rn_ne_negZero (x : Exact) (hb : x.m = 0 ∨ 0 < x.m) : rn x ≠ negZero := by
  unfold rn negZero
  split
  · decide
  · next h =>
    rw [if_neg (by omega)]
    have : rnMagnitude x.m.natAbs x.e ≤ 2047 * 2 ^ 52 := by
      change packMagnitude _ _ ≤ _
      rw [packMagnitude]
      exact Nat.min_le_right _ _
    intro hc
    have := congrArg BitVec.toNat hc
    rw [BitVec.toNat_ofNat, Nat.mod_eq_of_lt (by omega)] at this
    simp at this
    omega

theorem truncU32_eq {x : F64} {v : ℚ} (h : f64Is x v) (hv : 0 ≤ v) : truncU32 x = BitVec.ofInt 32 ⌊v⌋ := by
  obtain ⟨w, hw, hwv⟩ := exact_of_f64Is h
  simp only [truncU32, hw]
  rw [exactTrunc_of_nonneg w (by rw [hwv]; exact hv), hwv]

theorem truncInt_eq {x : F64} {v : ℚ} (h : f64Is x v) (hv : 0 ≤ v) (hlt : v < 2 ^ 32) :
    truncInt x = BitVec.ofInt 32 ⌊v⌋ := by
  obtain ⟨w, hw, hwv⟩ := exact_of_f64Is h
  have hf : 0 ≤ ⌊v⌋ ∧ ⌊v⌋ < 2 ^ 32 := ⟨Int.floor_nonneg.mpr hv, Int.floor_lt.mpr (by exact_mod_cast hlt)⟩
  simp only [truncInt, hw, exactTrunc_of_nonneg w (by rw [hwv]; exact hv), hwv, fitsU32, hf, decide_true, and_self,
    if_true]

theorem floorF64_eq {x : F64} {v : ℚ} (h : f64Is x v) : floorF64 x = ⌊v⌋ := by
  obtain ⟨w, hw, hwv⟩ := exact_of_f64Is h
  simp only [floorF64, hw, exactFloor_eq, hwv]

theorem ltZero_eq {x : F64} {v : ℚ} (h : f64Is x v) : ltZero x = decide (v < 0) := by
  obtain ⟨w, hw, hwv⟩ := exact_of_f64Is h
  simp only [ltZero, hw, ← hwv, exactValue_lt_zero_iff]

/-- The pattern R79 (a) gives is the rounding of the lattice value, which is exact. -/
theorem latticeBits_eq_rn (k : Nat) (hk : k < 2 ^ 32) : latticeBits k = rn ⟨k, -32⟩ := by
  unfold latticeBits rn
  by_cases h0 : k = 0
  · simp [h0]
  have hL : k.log2 < 32 := (Nat.log2_lt h0).mpr hk
  have hlo := Nat.log2_self_le h0
  simp only [if_neg h0, Int.natCast_eq_zero, if_neg (by omega : ¬ ((k : Int) < 0)), Int.natAbs_natCast]
  congr 1
  have hq : quantumExp k (-32) = (k.log2 : Int) - 84 := by unfold quantumExp; omega
  change _ = packMagnitude (roundToQuantum k (-32) (quantumExp k (-32))) (quantumExp k (-32))
  rw [hq, packMagnitude, roundToQuantum, if_pos (by omega)]
  have e1 : ((-32 : Int) - ((k.log2 : Int) - 84)).toNat = 52 - k.log2 := by omega
  have e2 : ((k.log2 : Int) - 84 + 1074).toNat = k.log2 + 990 := by omega
  rw [e1, e2]
  have hpow : 2 ^ k.log2 * 2 ^ (52 - k.log2) = 2 ^ 52 := by rw [← pow_add]; congr 1; omega
  have hhi : k * 2 ^ (52 - k.log2) < 2 ^ 53 := by
    have : k < 2 ^ (k.log2 + 1) := Nat.lt_log2_self
    calc k * 2 ^ (52 - k.log2) < 2 ^ (k.log2 + 1) * 2 ^ (52 - k.log2) := by
          exact Nat.mul_lt_mul_of_pos_right this (by positivity)
      _ = 2 ^ 53 := by rw [← pow_add]; congr 1; omega
  have hge : 2 ^ 52 ≤ k * 2 ^ (52 - k.log2) := by
    rw [← hpow]; exact Nat.mul_le_mul_right _ hlo
  rw [Nat.sub_mul, hpow, Nat.min_eq_left (by omega)]
  omega

/-- The pattern R79 (b) gives is the rounding of the fraction, which is exact. -/
theorem fractionBits_eq_rn (m : Nat) (hm : m < 2 ^ 53) : fractionBits m = rn ⟨m, -53⟩ := by
  unfold fractionBits rn
  by_cases h0 : m = 0
  · simp [h0]
  have hL : m.log2 < 53 := (Nat.log2_lt h0).mpr hm
  have hlo := Nat.log2_self_le h0
  simp only [if_neg h0, Int.natCast_eq_zero, if_neg (by omega : ¬ ((m : Int) < 0)), Int.natAbs_natCast]
  congr 1
  have hq : quantumExp m (-53) = (m.log2 : Int) - 105 := by unfold quantumExp; omega
  change _ = packMagnitude (roundToQuantum m (-53) (quantumExp m (-53))) (quantumExp m (-53))
  rw [hq, packMagnitude, roundToQuantum, if_pos (by omega)]
  have e1 : ((-53 : Int) - ((m.log2 : Int) - 105)).toNat = 52 - m.log2 := by omega
  have e2 : ((m.log2 : Int) - 105 + 1074).toNat = m.log2 + 969 := by omega
  rw [e1, e2]
  have hpow : 2 ^ m.log2 * 2 ^ (52 - m.log2) = 2 ^ 52 := by rw [← pow_add]; congr 1; omega
  have hhi : m * 2 ^ (52 - m.log2) < 2 ^ 53 := by
    have : m < 2 ^ (m.log2 + 1) := Nat.lt_log2_self
    calc m * 2 ^ (52 - m.log2) < 2 ^ (m.log2 + 1) * 2 ^ (52 - m.log2) := by
          exact Nat.mul_lt_mul_of_pos_right this (by positivity)
      _ = 2 ^ 53 := by rw [← pow_add]; congr 1; omega
  have hge : 2 ^ 52 ≤ m * 2 ^ (52 - m.log2) := by
    rw [← hpow]; exact Nat.mul_le_mul_right _ hlo
  rw [Nat.sub_mul, hpow, Nat.min_eq_left (by omega)]
  omega

theorem latticeF64_is (k : Word) : f64Is (latticeF64 k) ((k.toNat : ℚ) * 2 ^ (-32 : Int)) := by
  rw [latticeF64, latticeBits_eq_rn _ k.isLt]
  have := rn_exact k.toNat (-32) (by have := k.isLt; omega) (by norm_num) (by norm_num)
  simpa using this

theorem u32ToF64_is (k : Word) : f64Is (u32ToF64 k) (k.toNat : ℚ) := by
  have := rn_exact k.toNat 0 (by have := k.isLt; omega) (by norm_num) (by norm_num)
  simpa [u32ToF64, intToF64] using this

end Sys2Proof.Machine
end

