-- ==== Sys2Proof/Laws/Shared.lean ====
section
/-!
SUPPORT. One lemma for each arithmetic operation that several commands share: the hash value (`MOUT`, `APRIME`,
`AFOLD`), and the draw (`DRAW`, `U32`, `F53`) on lattice words.
-/

namespace Sys2Proof.Machine

theorem aMul_is : f64Is Config.aMul 2091639 := by
  have h : f64Exact Config.aMul = some ⟨0x1FEA7700000000, -32⟩ := by decide
  have := f64Is_of_exact h
  norm_num [exactValue] at this
  exact this

theorem twoM32_is : f64Is Config.twoM32 (2 ^ (-32 : ℤ)) := by
  have h : f64Exact Config.twoM32 = some ⟨2 ^ 52, -84⟩ := by decide
  have := f64Is_of_exact h
  norm_num [exactValue] at this ⊢
  exact this

/-- The hash value is the lattice value of the accumulator (R92: exact). -/
theorem hashValue_eq (n : Word) : hashValue n = latticeF64 n := by
  rw [latticeF64, latticeBits_eq_rn _ n.isLt, hashValue]
  exact fmul_eq (u32ToF64_is n) twoM32_is _ (by simp [exactValue])

theorem lattice_ne_negZero (k : Word) : latticeF64 k ≠ negZero := by
  rw [latticeF64, latticeBits_eq_rn _ k.isLt]
  exact rn_ne_negZero _ (by simp only; omega)

/-- One draw on lattice words, for any 32-bit carry, is the integer draw (R111). -/
theorem drawStep_lattice (q : AleaInt) :
    drawStep ⟨latticeF64 q.k0, latticeF64 q.k1, latticeF64 q.k2, q.c⟩ =
      ⟨latticeF64 (drawInt q).k0, latticeF64 (drawInt q).k1, latticeF64 (drawInt q).k2, (drawInt q).c⟩ := by
  obtain ⟨k0, k1, k2, c⟩ := q
  set T : Nat := 2091639 * k0.toNat + c.toNat with hT
  have hk := k0.isLt
  have hc := c.isLt
  have hTlt : T < 2 ^ 53 := by omega
  have hprod : fmul Config.aMul (latticeF64 k0) = rn ⟨2091639 * k0.toNat, -32⟩ :=
    fmul_eq aMul_is (latticeF64_is k0) _ (by simp only [exactValue]; push_cast; ring)
  have hprodIs : f64Is (fmul Config.aMul (latticeF64 k0)) (2091639 * k0.toNat * (2 : ℚ) ^ (-32 : ℤ)) := by
    rw [hprod]
    have := rn_exact (2091639 * k0.toNat) (-32) (by omega) (by norm_num) (by norm_num)
    push_cast at this
    exact this
  have hcar : fmul (u32ToF64 c) Config.twoM32 = latticeF64 c := hashValue_eq c
  have ht : fadd (fmul Config.aMul (latticeF64 k0)) (latticeF64 c) = rn ⟨T, -32⟩ :=
    fadd_eq hprodIs (latticeF64_is c) (.inr (lattice_ne_negZero c)) _
      (by simp only [exactValue, hT]; push_cast; ring)
  have htIs : f64Is (rn ⟨T, -32⟩) (T * (2 : ℚ) ^ (-32 : ℤ)) := by
    have := rn_exact T (-32) (by omega) (by norm_num) (by norm_num)
    simpa using this
  have hfloor : ⌊(T : ℚ) * (2 : ℚ) ^ (-32 : ℤ)⌋ = ((T / 2 ^ 32 : Nat) : ℤ) := by
    have e : (T : ℚ) * (2 : ℚ) ^ (-32 : ℤ) = ((T : ℤ) : ℚ) / ((2 ^ 32 : Nat) : ℚ) := by
      push_cast
      rw [zpow_neg, div_eq_mul_inv]
      norm_num
    rw [e, Rat.floor_intCast_div_natCast]
    push_cast
    rfl
  have hcarry : truncInt (rn ⟨T, -32⟩) = BitVec.ofNat 32 (T / 2 ^ 32) := by
    rw [truncInt_eq htIs (by positivity) ?_, hfloor]
    · rfl
    · have : (T : ℚ) < 2 ^ 53 := by exact_mod_cast hTlt
      rw [zpow_neg]
      norm_num
      linarith
  have hdiv : (BitVec.ofNat 32 (T / 2 ^ 32)).toNat = T / 2 ^ 32 := by
    rw [BitVec.toNat_ofNat, Nat.mod_eq_of_lt (by omega)]
  have hnew : fsub (rn ⟨T, -32⟩) (u32ToF64 (BitVec.ofNat 32 (T / 2 ^ 32))) =
      latticeF64 (BitVec.ofNat 32 (T % 2 ^ 32)) := by
    rw [latticeF64, latticeBits_eq_rn _ (BitVec.isLt _)]
    apply fsub_eq htIs (u32ToF64_is _)
    have hm : (BitVec.ofNat 32 (T % 2 ^ 32)).toNat = T % 2 ^ 32 := by
      rw [BitVec.toNat_ofNat, Nat.mod_mod]
    have hsplit : (T : ℚ) = ((T / 2 ^ 32 : Nat) : ℚ) * 2 ^ 32 + ((T % 2 ^ 32 : Nat) : ℚ) := by
      have : T = (T / 2 ^ 32) * 2 ^ 32 + T % 2 ^ 32 := by omega
      exact_mod_cast this
    rw [hdiv, exactValue, hm]
    conv_rhs => rw [hsplit]
    rw [zpow_neg]
    generalize T / 2 ^ 32 = a
    generalize T % 2 ^ 32 = b
    push_cast
    norm_num
    ring
  simp only [drawStep, hcar, ht, hcarry, hnew, drawInt, ← hT]

end Sys2Proof.Machine
end

