-- ==== Sys2Proof/Tests/Slice0.lean ====
section
/-!
SUPPORT. Tests of the model against words and vectors of the spec, and for every statement with hypotheses a witness
that meets them. Every expected value is from spec/95_test_vectors.md or the worked example of the rule named.
-/

namespace Sys2Proof.Tests

open Sys2Proof Sys2Proof.Machine
open Host (Outcome)

/-! ### Well-formedness: the one check, refused on an ill-formed term of each kind (R60) -/

theorem test_wf_aprime_refused : (Instr.aprime 3#2).wellFormed = false := by decide
theorem test_wf_afold_refused : (Instr.afold 3#2).wellFormed = false := by decide
theorem test_wf_accepted : (Instr.aprime 2#2).wellFormed = true ∧ (Instr.mabs 0x1fffff#21).wellFormed = true := by decide

/-! ### Decoding: one word for every constructor, written out bit by bit from the patterns of R56 -/

theorem test_decode_minit : decode 0b00010000_00000000_00000000_00000000#32 = .ok .minit := by decide
theorem test_decode_mabs : decode 0b00010001_00010000_11111111_11111110#32 = .ok (.mabs 0x10fffe#21) := by decide
theorem test_decode_mout : decode 0b00010010_00000000_00000000_00000000#32 = .ok .mout := by decide
theorem test_decode_aprime : decode 0b00100000_00000000_00000000_00000001#32 = .ok (.aprime 1#2) := by decide
theorem test_decode_afold : decode 0b00100001_00000000_00000000_00000010#32 = .ok (.afold 2#2) := by decide
theorem test_decode_acinit : decode 0b00100010_00000000_00000000_00000000#32 = .ok .acinit := by decide
theorem test_decode_draw : decode 0b00110000_00000000_00000000_00000000#32 = .ok .draw := by decide
theorem test_decode_u32 : decode 0b00110001_00000000_00000000_00000000#32 = .ok .u32 := by decide
theorem test_decode_f53 : decode 0b00110010_00000000_00000000_00000000#32 = .ok .f53 := by decide

/-- Section 7: unassigned opcodes next to assigned ones. -/
theorem test_decode_illegal : ([0x00000000#32, 0xFFFFFFFF#32, 0x13000000#32, 0x0F000000#32, 0x23000002#32,
    0x33000000#32].all fun w => decode w = .error .illegalOpcode) = true := by decide
/-- Section 7: reserved bits and the reserved index. -/
theorem test_decode_reserved : ([0x10800000#32, 0x12000001#32, 0x11200000#32, 0x20000003#32, 0x21000004#32,
    0x22000001#32, 0x30000001#32, 0x31000100#32, 0x32800000#32].all fun w => decode w = .error .reservedField) = true := by
  decide

theorem test_table_word : decodeTableWord 32 0x1100006d = some (.mabs 0x6d#21) ∧
    decodeTableWord 32 0x20000003 = none := by decide

/-! ### One step of each command -/

/-- The next state of one step. -/
def nextState (s : State) : Option State :=
  match step s with
  | .next t => some t
  | _ => none

/-- Run one command word. -/
def after (s : State) (cmd : Word) : Option State := nextState (s.issue cmd)

/-- The state of the spec's vectors: an accumulator, three words and a carry. -/
def vec (n : Word) (a b d : F64) (c : Word) : State :=
  { n := n, s0 := .written a, s1 := .written b, s2 := .written d, c := c, inputs := [], responses := [] }

/-- A state with only the accumulator set, as after `MINIT` and `MABS` on a reset block. -/
def acc (n : Word) : State := { State.reset with n := n }

/-- R90, example: from `n = 0xdd031fd2`. -/
theorem test_minit : after (acc 0xdd031fd2#32) 0x10000000#32 =
    some { acc 0xefc8249d#32 with responses := [⟨.ok, 0#64⟩] } := by decide +kernel
/-- Vector M1. -/
theorem test_mabs_m1 : after State.reset 0x11000020#32 =
    some { acc 0xdd031fd2#32 with responses := [⟨.ok, 0#64⟩] } := by decide +kernel
/-- Vector M1, every intermediate value. -/
theorem test_mabs_steps : mashSteps 0xefc8249d#32 0x20#21 =
    { a := 0xefc824bd#32, h1 := 0x41982A8C2E2216EF#64, n1 := 101360395#32, f1 := 0x3FE110B778000000#64,
      p := 0x4189C67496CE528A#64, n2 := 54054546#32, f2 := 0x3FEB394A28000000#64, x := 0x41EB394A28000000#64,
      sum := 0x41EBA063FA400000#64, n := 0xdd031fd2#32 } := by decide +kernel
/-- Section 4. -/
theorem test_mout : after (acc 0xefc8249d#32) 0x12000000#32 =
    some { acc 0xefc8249d#32 with responses := [⟨.ok, 0x3FEDF90493A00000#64⟩] } := by decide +kernel
/-- Section 4: the largest value. -/
theorem test_mout_max : after (acc 0xffffffff#32) 0x12000000#32 =
    some { acc 0xffffffff#32 with responses := [⟨.ok, 0x3FEFFFFFFFE00000#64⟩] } := by decide +kernel
/-- R100, example. -/
theorem test_aprime : after (acc 0xdd031fd2#32) 0x20000000#32 =
    some { acc 0xdd031fd2#32 with s0 := .written 0x3FEBA063FA400000#64, responses := [⟨.ok, 0#64⟩] } := by decide +kernel
/-- Section 5: the second word. -/
theorem test_aprime_1 : (after (acc 0x26733e5d#32) 0x20000001#32).map (fun t => (t.s0, t.s1, t.s2)) =
    some (.unwritten, .written 0x3FC3399F2E800000#64, .unwritten) := by decide +kernel
/-- R101, example: a negative difference. -/
theorem test_afold : (after (vec 0xf6cd24b3#32 0x3FEBA063FA400000#64 0#64 0#64 1#32) 0x21000000#32).map State.s0 =
    some (.written 0x3FECC6BF63E00000#64) := by decide +kernel
/-- Program P4, step 10: an unwritten word. -/
theorem test_afold_unwritten : after State.reset 0x21000001#32 =
    some { State.reset with responses := [⟨.unwrittenState, 0#64⟩] } := by decide +kernel
/-- R102, example. -/
theorem test_acinit : (after (vec 0#32 0#64 0#64 0#64 1880929#32) 0x22000000#32).map State.c = some 1#32 := by decide +kernel
/-- Program P2, step 24. -/
theorem test_draw : after (vec 0x51ccdb69#32 0x3FECC6BF63E00000#64 0x3FA9BE1E4A000000#64 0x3FE324271B400000#64 1#32)
    0x30000000#32 =
    some { vec 0x51ccdb69#32 0x3FA9BE1E4A000000#64 0x3FE324271B400000#64 0x3FE86C622D400000#64 1880929#32 with
      responses := [⟨.ok, 0x3FE86C622D400000#64⟩] } := by decide +kernel
/-- Section 6, a draw that rounds: `s[0] = 1 - 2^-53`, carry 1. -/
theorem test_draw_inexact :
    (after (vec 0#32 0x3FEFFFFFFFFFFFFF#64 0x3FD0000000000000#64 0x3FE0000000000000#64 1#32) 0x30000000#32).map
      (fun t => (t.s2, t.c)) = some (.written 0#64, 2091639#32) := by decide +kernel
/-- Section 6. -/
theorem test_u32 : (after (vec 0#32 0x3FE0000000000000#64 0x3FD0000000000000#64 0x3FE0000000000000#64 1#32)
    0x31000000#32).map (fun t => (t.responses, t.c)) = some ([⟨.ok, 0x80000001#64⟩], 1045819#32) := by decide +kernel
/-- Program P4, step 11. -/
theorem test_u32_unwritten : after { acc 0xdd031fd2#32 with s0 := .written 0#64 } 0x31000000#32 =
    some { acc 0xdd031fd2#32 with s0 := .written 0#64, responses := [⟨.unwrittenState, 0#64⟩] } := by decide +kernel
/-- Section 6, third line. -/
theorem test_f53 : after (vec 0#32 0x3FE0000000000000#64 0x3FD0000000000000#64 0x3FE0000000000000#64 1#32)
    0x32000000#32 =
    some { vec 0#32 0x3FE0000000000000#64 0x3FE0000000200000#64 0x3FE801FEA7600000#64 522909#32 with
      responses := [⟨.ok, 0x3FE00000003801FE#64⟩] } := by decide +kernel
/-- Section 6, on a state the block cannot reach: the result is above 1.0. -/
theorem test_f53_above_one :
    (after (vec 0#32 0x3EA00ACBC3F0F500#64 0x3FE8000000000000#64 0x3FE0000000000000#64 0#32) 0x32000000#32).map
      State.responses = some [⟨.ok, 0x3FF0000000040000#64⟩] := by decide +kernel

/-- The reset event, with a command behind it. -/
theorem test_reset_event : step { vec 5#32 0#64 0#64 0#64 7#32 with inputs := [.reset, .command 0x12000000#32] } =
    .next { State.reset with inputs := [.command 0x12000000#32] } := by rfl

/-- A word placed by `withFetchWord` is the first one the next step runs. -/
theorem test_with_fetch_word : nextState (State.reset.withFetchWord 32 0x12000000) =
    some { State.reset with responses := [⟨.ok, 0x3FEDF90493A00000#64⟩] } := by decide +kernel

/-- Section 2: `trunc_u32` and `RN53`. -/
theorem test_trunc_u32 : truncU32 0x41F029D30F500000#64 = 43856117#32 ∧ truncU32 0xBFF8000000000000#64 = 0xffffffff#32 ∧
    truncU32 0xBFE0000000000000#64 = 0#32 := by decide +kernel
theorem test_rn53 : rn53 (2 ^ 53 + 1) = 2 ^ 53 ∧ rn53 (2 ^ 53 + 3) = 2 ^ 53 + 4 ∧ rn53 (2 ^ 54 + 3) = 2 ^ 54 + 4 ∧
    rn53 (2 ^ 54 + 1) = 2 ^ 54 := by decide +kernel

/-! ### Witnesses: concrete states and operands that meet the hypotheses of each statement, clause by clause -/

/-- A state whose words are lattice values: `s = (2^31, 2^30, 2^32 - 1) * 2^-32`, with the largest reachable carry. -/
def latticeState : State :=
  vec 0xffffffff#32 0x3FE0000000000000#64 0x3FD0000000000000#64 0x3FEFFFFFFFE00000#64 2091638#32

/-- Its integer form. -/
def latticeInt : AleaInt := ⟨0x80000000#32, 0x40000000#32, 0xffffffff#32, 2091638#32⟩

theorem lattice_state_holds : latticeState.HoldsAlea latticeInt := by unfold State.HoldsAlea; decide +kernel
theorem lattice_state_on_lattice : latticeState.OnLattice :=
  ⟨.inr ⟨latticeInt.k0, by decide +kernel⟩, .inr ⟨latticeInt.k1, by decide +kernel⟩, .inr ⟨latticeInt.k2, by decide +kernel⟩⟩
theorem lattice_state_written : (latticeState.w 0#2 && latticeState.w 1#2 && latticeState.w 2#2) = true := by decide

/-- Every command answers a next state, here on the two states used below. -/
theorem witness_exec_next (i : Instr) :
    (∃ t, exec i State.reset = .next t) ∧ ∃ t, exec i latticeState = .next t :=
  ⟨exec_answers _ _, exec_answers _ _⟩

theorem witness_DecodeOfEncode : (Instr.mabs 0x1fffff#21).wellFormed = true ∧ (Instr.mabs 0#21).wellFormed = true ∧
    (Instr.afold 2#2).wellFormed = true ∧ (Instr.aprime 0#2).wellFormed = true := by decide
theorem witness_EncodeOfDecode : decode 0x111FFFFF#32 = .ok (.mabs 0x1fffff#21) ∧
    decode 0x20000002#32 = .ok (.aprime 2#2) := by decide
theorem witness_LegalWordsAreTableInstances_last :
    (⟨"MABS", 0xFFE00000#32, 0x11000000#32⟩ : OpcodeRow) ∈ opcodeTable ∧
    (⟨"MABS", 0xFFE00000#32, 0x11000000#32⟩ : OpcodeRow).covers 0x111FFFFF#32 = true := by decide
theorem witness_UnassignedOpcode_1 : ¬ AssignedOpcode 0x33000000#32 ∧ ¬ AssignedOpcode 0x0fffffff#32 := by
  unfold AssignedOpcode; decide
theorem witness_UnassignedOpcode_2 : after State.reset 0x33000000#32 =
    some { State.reset with responses := State.reset.responses ++ [⟨.illegalOpcode, 0#64⟩] } := by decide
theorem witness_BrokenOperand_1 : BrokenOperand 0x30000001#32 ∧ BrokenOperand 0x11200000#32 ∧
    BrokenOperand 0x20000003#32 ∧ BrokenOperand 0x21000004#32 := by unfold BrokenOperand; decide
theorem witness_BrokenOperand_2 : after State.reset 0x11800000#32 =
    some { State.reset with responses := State.reset.responses ++ [⟨.reservedField, 0#64⟩] } := by decide
theorem witness_ErrorPriority_1 : after State.reset 0x30000000#32 =
    some { State.reset with responses := State.reset.responses ++ [⟨.unwrittenState, 0#64⟩] } := by decide
theorem witness_StepRuns_1 :
    (State.reset.issue 0x31000000#32).inputs = .command 0x31000000#32 :: [] ∧ decode 0x31000000#32 = .ok .u32 := by decide
theorem witness_StepRuns_2 : (State.reset.issue 0xFFFFFFFF#32).inputs = .command 0xFFFFFFFF#32 :: [] ∧
    decode 0xFFFFFFFF#32 = .error .illegalOpcode := by decide
theorem witness_NoInput : latticeState.inputs = [] := by decide
theorem witness_Reset_1 : (latticeState.issueNext .reset).inputs = .reset :: [] := by decide
theorem witness_Reset_2 : ((latticeState.issueNext .reset).issueNext .reset).inputs = .reset :: .reset :: [] := by decide
theorem witness_EveryCommandIsAnswered : (latticeState.issue 0#32).inputs = .command 0#32 :: [] := by decide
theorem witness_Minit_word : (0x10800000#32 : Word).extractLsb' 24 8 = 0x10#8 := by decide
theorem witness_Mout_word : (0x12000001#32 : Word).extractLsb' 24 8 = 0x12#8 := by decide
theorem witness_Aprime_word : (0x20000003#32 : Word).extractLsb' 24 8 = 0x20#8 := by decide
theorem witness_Afold_word : (0x21000004#32 : Word).extractLsb' 24 8 = 0x21#8 := by decide
theorem witness_Acinit_word : (0x22000001#32 : Word).extractLsb' 24 8 = 0x22#8 := by decide

/-- The edge of the premises of MabsIntermediateValues: the largest sum rounds, the sum 0 does not. -/
theorem witness_MabsIntermediate : (mashSteps 0xffffffff#32 0#21).a ≠ 0#32 ∧ (mashSteps 0xffffffff#32 1#21).a = 0#32 := by
  decide +kernel
/-- The product of step 5 is not zero at the smallest sum that gives one. -/
theorem witness_MabsIntermediate_p :
    f64Value (mashSteps 0#32 0x28#21).f1 * ((mashSteps 0#32 0x28#21).n1.toNat : ℚ) ≠ 0 := by
  have h1 : f64Exact (mashSteps 0#32 0x28#21).f1 = some ⟨0x100F1B36000000, -59⟩ := by decide +kernel
  have h2 : (mashSteps 0#32 0x28#21).n1.toNat = 1 := by decide +kernel
  rw [(f64Is_of_exact h1).2, h2]
  norm_num [exactValue]
theorem witness_MabsSmallSum : ((7#32 : Word).toNat + (0x20#21 : ChrCode).toNat) % 2 ^ 32 < 40 ∧
    ((0xffffffff#32 : Word).toNat + (1#21 : ChrCode).toNat) % 2 ^ 32 < 40 := by decide +kernel

theorem witness_Seeding_1 : (2#2 : WordIdx) ≠ 3#2 := by decide
theorem witness_Seeding_2 : latticeState.word 2#2 = some (.written (latticeF64 0xffffffff#32)) ∧
    latticeState.word 0#2 = some (.written (latticeF64 0x80000000#32)) := by decide +kernel

/-- A finite word that is no lattice value, for the three cases of AfoldOnAnyWrittenWord: 0.5, with accumulators that
make the difference zero, positive and negative. -/
theorem witness_Afold_any : latticeState.word 0#2 = some (.written 0x3FE0000000000000#64) ∧
    f64Finite 0x3FE0000000000000#64 ∧ f64Value 0x3FE0000000000000#64 = 1 / 2 := by
  have h : f64Exact 0x3FE0000000000000#64 = some ⟨2 ^ 52, -53⟩ := by decide +kernel
  have := f64Is_of_exact h
  norm_num [exactValue] at this
  exact ⟨by decide, this.1, by rw [this.2]⟩
theorem witness_Afold_any_bound : |f64Value 0x3FE0000000000000#64| < 2 ^ 1000 := by
  rw [witness_Afold_any.2.2, abs_of_pos (by norm_num)]
  exact lt_of_lt_of_le (by norm_num : (1 / 2 : ℚ) < 1) (one_le_pow₀ (by norm_num))
theorem witness_Afold_zero : f64Value 0x3FE0000000000000#64 - ((0x80000000#32 : Word).toNat : ℚ) / 2 ^ 32 = 0 := by
  rw [witness_Afold_any.2.2, show (0x80000000#32 : Word).toNat = 2147483648 from rfl]; norm_num
theorem witness_Afold_positive : 0 < f64Value 0x3FE0000000000000#64 - ((0x7fffffff#32 : Word).toNat : ℚ) / 2 ^ 32 := by
  rw [witness_Afold_any.2.2, show (0x7fffffff#32 : Word).toNat = 2147483647 from rfl]; norm_num
theorem witness_Afold_negative : f64Value 0x3FE0000000000000#64 - ((0xffffffff#32 : Word).toNat : ℚ) / 2 ^ 32 < 0 := by
  rw [witness_Afold_any.2.2, show (0xffffffff#32 : Word).toNat = 4294967295 from rfl]; norm_num
theorem witness_AfoldErrors : State.reset.word 1#2 = some .unwritten := by decide

theorem witness_HoldsAlea : ∃ s q, State.HoldsAlea s q := ⟨_, _, lattice_state_holds⟩
theorem witness_SharesOneStream : latticeState.s0 = .written 0x3FE0000000000000#64 ∧
    latticeState.s1 = .written 0x3FD0000000000000#64 ∧ latticeState.s2 = .written 0x3FEFFFFFFFE00000#64 := by decide
theorem witness_UnwrittenState_1 : State.reset.w 2#2 = false ∧ latticeState.w 2#2 = true ∧ (2#2 : WordIdx) ≠ 3#2 := by decide
theorem witness_UnwrittenState_3 : (latticeState.w 0#2 && latticeState.w 1#2 && latticeState.w 2#2) = true ∧
    ∃ t, exec .f53 latticeState = .next t := ⟨lattice_state_written, exec_answers _ _⟩

/-- The largest binary64 value below 1, no lattice value, as `s[0]`. -/
theorem witness_DrawRange : f64Finite 0x3FEFFFFFFFFFFFFF#64 ∧ 0 ≤ f64Value 0x3FEFFFFFFFFFFFFF#64 ∧
    f64Value 0x3FEFFFFFFFFFFFFF#64 < 1 := by
  have h : f64Exact 0x3FEFFFFFFFFFFFFF#64 = some ⟨2 ^ 53 - 1, -53⟩ := by decide +kernel
  have := f64Is_of_exact h
  refine ⟨this.1, ?_, ?_⟩ <;> rw [this.2] <;> norm_num [exactValue]
theorem witness_DrawOutputs : latticeState.OnLattice ∧
    (latticeState.w 0#2 && latticeState.w 1#2 && latticeState.w 2#2) = true :=
  ⟨lattice_state_on_lattice, lattice_state_written⟩

/-- The two fixed points themselves meet the premises of FixedPointsHaveNoOtherPredecessor. -/
theorem witness_FixedPoints_zero : (vec 0#32 0#64 0#64 0#64 0#32).HoldsAlea ⟨0#32, 0#32, 0#32, 0#32⟩ ∧
    ∃ t, exec .draw (vec 0#32 0#64 0#64 0#64 0#32) = .next t :=
  ⟨by unfold State.HoldsAlea; decide +kernel, exec_answers _ _⟩
theorem witness_FixedPoints_max :
    (vec 0#32 0x3FEFFFFFFFE00000#64 0x3FEFFFFFFFE00000#64 0x3FEFFFFFFFE00000#64 2091638#32).HoldsAlea
      ⟨0xffffffff#32, 0xffffffff#32, 0xffffffff#32, 2091638#32⟩ ∧ (2091638#32 : Word).toNat ≤ 2091638 ∧
    ∃ t, exec .draw (vec 0#32 0x3FEFFFFFFFE00000#64 0x3FEFFFFFFFE00000#64 0x3FEFFFFFFFE00000#64 2091638#32) = .next t :=
  ⟨by unfold State.HoldsAlea; decide +kernel, by decide, exec_answers _ _⟩

theorem witness_Reachable : Reachable State.reset := Reachable.reset []
theorem witness_AccessMatrix (i : Instr) : ∃ t, exec i latticeState = .next t := exec_answers _ _
theorem witness_DrawFamilyIgnoresAccumulator : ∃ t, exec .f53 latticeState = .next t := exec_answers _ _
theorem witness_MashFamilyIgnoresAlea : ∃ t, exec (.mabs 0x1fffff#21) latticeState = .next t := exec_answers _ _
theorem witness_SeedingIgnoresCarry : ∃ t u, exec (.afold 0#2) latticeState = .next t ∧ exec .acinit t = .next u := by
  obtain ⟨t, ht⟩ := exec_answers (.afold 0#2) latticeState
  obtain ⟨u, hu⟩ := exec_answers .acinit t
  exact ⟨t, u, ht, hu⟩

/-- Each of the three errors meets the premises of FailingCommandChangesNothing. -/
theorem witness_FailingCommand :
    after State.reset 0x32000000#32 = some { State.reset with responses := [⟨.unwrittenState, 0#64⟩] } ∧
    after State.reset 0x32000001#32 = some { State.reset with responses := [⟨.reservedField, 0#64⟩] } ∧
    after State.reset 0x34000000#32 = some { State.reset with responses := [⟨.illegalOpcode, 0#64⟩] } := by decide
theorem witness_Flags_1 : (latticeState.issue 0x30000000#32).w 0#2 = true := by decide
theorem witness_Flags_2 : (State.reset.issue 0x20000002#32).w 2#2 = false ∧
    (after State.reset 0x20000002#32).map (State.w · 2#2) = some true := by decide +kernel

theorem witness_EveryStepKeepsLattice : latticeState.OnLattice ∧ ∃ t, step (latticeState.issue 0x32000000#32) = .next t :=
  ⟨lattice_state_on_lattice, exec_answers .f53 latticeState⟩
theorem witness_EveryStepKeepsCarryBound : latticeState.OnLattice ∧ latticeState.CarryBounded :=
  ⟨lattice_state_on_lattice, by unfold State.CarryBounded; decide⟩
theorem witness_EveryStepKeepsErrorsWithoutData :
    ({ latticeState with responses := [⟨.reservedField, 0#64⟩, ⟨.ok, 5#64⟩] } : State).ErrorsCarryNoData := by
  unfold State.ErrorsCarryNoData; decide
theorem witness_ReachableStates : Reachable (State.reset.issue 0x20000000#32) := Reachable.reset [.command 0x20000000#32]

/-- A value with more than 53 bits, which rounds; and the edges of RnRoundsTiesToEven: zero and both overflows. -/
theorem witness_Rn_1 : exactValue ⟨2 ^ 53 + 1, 0⟩ ≠ 0 ∧ |exactValue ⟨2 ^ 53 + 1, 0⟩| < 2 ^ 1023 := by
  have h : (9007199254740993 : ℚ) < 2 ^ 1023 :=
    lt_of_lt_of_le (by norm_num : (9007199254740993 : ℚ) < 2 ^ 54) (pow_le_pow_right₀ (by norm_num) (by norm_num))
  norm_num [exactValue]
  exact h
theorem witness_Rn_2 : exactValue ⟨0, 5⟩ = 0 := by norm_num [exactValue]
theorem witness_Rn_3 : (2 : ℚ) ^ 1024 ≤ exactValue ⟨1, 1024⟩ := by norm_num [exactValue]
theorem witness_Rn_4 : exactValue ⟨-1, 1024⟩ ≤ -2 ^ 1024 := by norm_num [exactValue]

theorem one_is_one : f64Is Config.one 1 := by
  have h : f64Exact Config.one = some ⟨2 ^ 52, -52⟩ := by decide +kernel
  have := f64Is_of_exact h
  norm_num [exactValue] at this
  exact this
theorem minus_one_is : f64Is 0xBFF0000000000000#64 (-1) := by
  have h : f64Exact 0xBFF0000000000000#64 = some ⟨-2 ^ 52, -52⟩ := by decide +kernel
  have := f64Is_of_exact h
  norm_num [exactValue] at this
  exact this
/-- One pair of finite values for each clause of ArithmeticRoundsOnce. -/
theorem witness_Arithmetic : f64Finite Config.one ∧ f64Finite 0#64 ∧ f64Value Config.one * f64Value 0#64 = 0 ∧
    f64Value Config.one * f64Value Config.one ≠ 0 ∧ |f64Value Config.one * f64Value Config.one| < 2 ^ 1023 ∧
    f64Value Config.one + f64Value 0xBFF0000000000000#64 = 0 ∧ Config.one ≠ 0x8000000000000000#64 ∧
    f64Value Config.one + f64Value 0#64 ≠ 0 ∧ |f64Value Config.one + f64Value 0#64| < 2 ^ 1023 ∧
    f64Value Config.one ≠ f64Value 0#64 ∧ |f64Value Config.one - f64Value 0#64| < 2 ^ 1023 := by
  have h : (1 : ℚ) < 2 ^ 1023 := one_lt_pow₀ (by norm_num) (by norm_num)
  rw [one_is_one.2, f64Is_zero.2, minus_one_is.2]
  refine ⟨one_is_one.1, f64Is_zero.1, ?_, ?_, ?_, ?_, by decide, ?_, ?_, ?_, ?_⟩ <;> norm_num <;> exact h

/-- A negative value and one of `2^32`, the edges of `trunc_u32`. -/
theorem witness_TruncU32 : f64Finite 0xBFF8000000000000#64 ∧ f64Finite Config.two32 := by
  unfold f64Finite; decide +kernel
theorem witness_TruncInt : f64Finite Config.one ∧ 0 ≤ f64Value Config.one ∧ f64Value Config.one < 2 ^ 32 ∧
    f64Finite 0#64 ∧ 0 ≤ f64Value 0#64 := by
  rw [one_is_one.2, f64Is_zero.2]
  exact ⟨one_is_one.1, by norm_num, by norm_num, f64Is_zero.1, le_refl _⟩
theorem witness_Patterns : (1#32 : Word) ≠ 0#32 ∧ (0xffffffff#32 : Word) ≠ 0#32 ∧ 0 < 2 ^ 53 - 1 ∧ 2 ^ 53 - 1 < 2 ^ 53 := by
  decide
theorem witness_Rn53 : 2 ^ 54 + 3 ≠ 0 ∧ (-1022 : ℤ) ≤ ((2 ^ 54 + 3 : Nat).log2 : ℤ) + (-37) ∧
    ((2 ^ 54 + 3 : Nat).log2 : ℤ) + (-37) < 1023 := by decide +kernel

end Sys2Proof.Tests
end

section
/-!
SUPPORT. Proofs of the statements about the state: the invariants of spec/10_state.md (R26, R27), the access matrix
(R25), the flags (R24) and the reset values (R33).
-/

namespace Sys2Proof.Machine

/-! ### Every command and every step -/

/-- `DRAW`, `U32` and `F53` have one shape: they fail without the Alea state, and otherwise write it and answer, both as
functions of it alone. -/
theorem exec_draw_family (i : Instr) (hi : i = .draw ∨ i = .u32 ∨ i = .f53) :
    ∃ (next : Alea → Alea) (data : Alea → F64), ∀ s : State,
      (s.alea = none → exec i s = .next (s.fail .unwrittenState)) ∧
      (∀ q, s.alea = some q → exec i s = .next ((s.setAlea (next q)).succeed (data q))) := by
  rcases hi with rfl | rfl | rfl
  · exact ⟨_, _, fun s => ⟨fun h => by simp [exec, execDraw, h], execDraw_of_alea s⟩⟩
  · exact ⟨_, _, fun s => ⟨fun h => by simp [exec, execU32, h], execU32_of_alea s⟩⟩
  · exact ⟨fun q => drawStep (drawStep q), fun q => extractF53 (drawStep q).s2 (drawStep (drawStep q)).s2,
      fun s => ⟨fun h => by simp [exec, execF53, h], execF53_of_alea s⟩⟩

/-- The values a command can leave in the words and the carry: the old words with the old or the initial carry, one word
loaded with the hash value or folded with it, or the Alea state after one draw or two. -/
theorem exec_alea_cases (i : Instr) (s t : State) (h : exec i s = .next t) :
    (t.s0 = s.s0 ∧ t.s1 = s.s1 ∧ t.s2 = s.s2 ∧ (t.c = s.c ∨ t.c = Config.cInit)) ∨
    (∃ idx x, t = (s.setWord idx x).succeed 0#64 ∧
      (x = hashValue s.n ∨ ∃ y, s.word idx = some (.written y) ∧ x = foldValue y s.n)) ∨
    (∃ q d, s.alea = some q ∧
      (t = (s.setAlea (drawStep q)).succeed d ∨ t = (s.setAlea (drawStep (drawStep q))).succeed d)) := by
  rcases exec_cases i s t h with
    ⟨st, -, rfl⟩ | ⟨m, d, -, rfl⟩ | ⟨d, -, rfl⟩ | ⟨idx, x, hidx, hi, -⟩ | ⟨-, rfl⟩ | ⟨q, q', d, hi, hq, -⟩
  · exact .inl ⟨rfl, rfl, rfl, .inl rfl⟩
  · exact .inl ⟨rfl, rfl, rfl, .inl rfl⟩
  · exact .inl ⟨rfl, rfl, rfl, .inl rfl⟩
  · rcases hi with rfl | ⟨rfl, y, hy⟩
    · have hne : idx ≠ 3#2 := by simpa [legalIdx] using hidx
      exact .inr (.inl ⟨idx, _, Host.Outcome.next.inj (h.symm.trans (execAprime_legal s idx hne)), .inl rfl⟩)
    · exact .inr (.inl ⟨idx, _, Host.Outcome.next.inj (h.symm.trans (execAfold_of_written s idx y hy)),
        .inr ⟨y, hy, rfl⟩⟩)
  · exact .inl ⟨rfl, rfl, rfl, .inr rfl⟩
  · refine .inr (.inr ⟨q, ?_⟩)
    rcases hi with rfl | rfl | rfl
    · exact ⟨_, hq, .inl (Host.Outcome.next.inj (h.symm.trans (execDraw_of_alea s q hq)))⟩
    · exact ⟨_, hq, .inl (Host.Outcome.next.inj (h.symm.trans (execU32_of_alea s q hq)))⟩
    · exact ⟨_, hq, .inr (Host.Outcome.next.inj (h.symm.trans (execF53_of_alea s q hq)))⟩

/-- A property that does not look at the waiting inputs, and that a reset, a failing response and every command keep, is
kept by every step. -/
theorem step_keeps {P : State → Prop} (hinputs : ∀ s rest, P s → P { s with inputs := rest })
    (hreset : ∀ s, P s → P s.applyReset) (hfail : ∀ s st, P s → P (s.fail st))
    (hexec : ∀ i s t, P s → exec i s = .next t → P t) {s t : State} (hs : P s) (h : step s = .next t) : P t := by
  rcases step_cases s with ⟨-, hst⟩ | ⟨rest, -, hst⟩ | ⟨cmd, rest, e, -, -, hst⟩ | ⟨cmd, rest, i, -, -, hst⟩
  · obtain rfl := Host.Outcome.next.inj (h.symm.trans hst)
    exact hs
  · obtain rfl := Host.Outcome.next.inj (h.symm.trans hst)
    exact hreset _ (hinputs s rest hs)
  · obtain rfl := Host.Outcome.next.inj (h.symm.trans hst)
    exact hfail _ _ (hinputs s rest hs)
  · exact hexec i _ t (hinputs s rest hs) (hst.symm.trans h)

/-! ### Lattice values -/

theorem f64Neg_rn_of_nonneg (x : Exact) (h : 0 ≤ x.m) : f64Neg (rn x) = false := by
  unfold rn
  split
  · decide
  · rw [if_neg (by omega)]
    have hle : rnMagnitude x.m.natAbs x.e ≤ 2047 * 2 ^ 52 := Nat.min_le_right _ _
    exact f64Neg_ofNat _ (by omega)

theorem f64Neg_latticeF64 (k : Word) : f64Neg (latticeF64 k) = false := by
  rw [latticeF64, latticeBits_eq_rn _ k.isLt]
  exact f64Neg_rn_of_nonneg _ (Int.natCast_nonneg _)

theorem f64Value_latticeF64_nonneg (k : Word) : 0 ≤ f64Value (latticeF64 k) := by
  rw [(latticeF64_is k).2]
  positivity

theorem f64Value_latticeF64_lt_one (k : Word) : f64Value (latticeF64 k) < 1 := by
  have hk : (k.toNat : ℚ) < 2 ^ 32 := by exact_mod_cast k.isLt
  rw [(latticeF64_is k).2, zpow_neg, ← div_eq_mul_inv, div_lt_one (by positivity)]
  exact_mod_cast hk

theorem one_is : f64Is Config.one 1 := by
  have h : f64Exact Config.one = some ⟨2 ^ 52, -52⟩ := by decide
  have := f64Is_of_exact h
  norm_num [exactValue] at this
  exact this

/-- `AFOLD` on a lattice word is the wrapped difference of the integers (R103). -/
theorem foldValue_lattice (k n : Word) : foldValue (latticeF64 k) n = latticeF64 (k - n) := by
  have hk := k.isLt
  have hn := n.isLt
  have hd : fsub (latticeF64 k) (hashValue n) = rn ⟨(k.toNat : ℤ) - n.toNat, -32⟩ := by
    rw [hashValue_eq]
    exact fsub_eq (latticeF64_is k) (latticeF64_is n) _ (by simp only [exactValue]; push_cast; ring)
  have hdIs := rn_exact ((k.toNat : ℤ) - n.toNat) (-32) (by omega) (by norm_num) (by norm_num)
  have hneg : ltZero (rn ⟨(k.toNat : ℤ) - n.toNat, -32⟩) = decide ((k.toNat : ℤ) - n.toNat < 0) := by
    rw [ltZero_eq hdIs]
    exact decide_eq_decide.mpr (exactValue_lt_zero_iff ⟨(k.toNat : ℤ) - n.toNat, -32⟩)
  simp only [foldValue, hd, hneg, decide_eq_true_eq]
  rw [latticeF64, latticeBits_eq_rn _ (k - n).isLt]
  split
  · next hlt =>
    have hsub : ((k - n).toNat : ℤ) = (k.toNat : ℤ) - n.toNat + 2 ^ 32 := by bv_omega
    rw [hsub]
    exact fadd_eq hdIs one_is (.inr (by decide)) _ (by simp only [exactValue]; push_cast; norm_num; ring)
  · next hge =>
    have hsub : ((k - n).toNat : ℤ) = (k.toNat : ℤ) - n.toNat := by bv_omega
    rw [hsub]

/-! ### Integer Alea states -/

/-- The binary64 Alea state an integer Alea state stands for (R111). -/
def AleaInt.toAlea (q : AleaInt) : Alea := ⟨latticeF64 q.k0, latticeF64 q.k1, latticeF64 q.k2, q.c⟩

theorem drawStep_toAlea (q : AleaInt) : drawStep q.toAlea = (drawInt q).toAlea := drawStep_lattice q

/-- A draw from a carry of at most `A_MUL - 1` leaves one (R27). -/
theorem drawInt_carry_le (q : AleaInt) (h : q.c.toNat ≤ 2091638) : (drawInt q).c.toNat ≤ 2091638 := by
  have hk := q.k0.isLt
  have hdiv : (2091639 * q.k0.toNat + q.c.toNat) / 2 ^ 32 ≤ 2091638 := by omega
  exact (Nat.mod_le _ _).trans hdiv

theorem onLattice_written_iff (x : F64) : (StateWord.written x).OnLattice ↔ ∃ k, x = latticeF64 k := by
  simp [StateWord.OnLattice]

/-- In a lattice state the Alea state, when there is one, is an integer one, with the state's carry. -/
theorem alea_of_onLattice {s : State} (hs : s.OnLattice) {q : Alea} (hq : s.alea = some q) :
    ∃ z : AleaInt, q = z.toAlea ∧ z.c = s.c := by
  obtain ⟨h0, h1, h2⟩ := hs
  obtain ⟨e0, e1, e2, ec⟩ := (alea_eq_some_iff s q).mp hq
  rw [e0, onLattice_written_iff] at h0
  rw [e1, onLattice_written_iff] at h1
  rw [e2, onLattice_written_iff] at h2
  obtain ⟨k0, h0⟩ := h0
  obtain ⟨k1, h1⟩ := h1
  obtain ⟨k2, h2⟩ := h2
  refine ⟨⟨k0, k1, k2, q.c⟩, ?_, ec.symm⟩
  rw [AleaInt.toAlea, ← h0, ← h1, ← h2]

theorem setAlea_onLattice (s : State) (z : AleaInt) : (s.setAlea z.toAlea).OnLattice :=
  ⟨.inr ⟨z.k0, rfl⟩, .inr ⟨z.k1, rfl⟩, .inr ⟨z.k2, rfl⟩⟩

theorem setWord_onLattice {s : State} (hs : s.OnLattice) (idx : WordIdx) (k : Word) :
    (s.setWord idx (latticeF64 k)).OnLattice := by
  obtain ⟨h0, h1, h2⟩ := hs
  have hk : (StateWord.written (latticeF64 k)).OnLattice := .inr ⟨k, rfl⟩
  unfold State.setWord
  split_ifs
  · exact ⟨hk, h1, h2⟩
  · exact ⟨h0, hk, h2⟩
  · exact ⟨h0, h1, hk⟩
  · exact ⟨h0, h1, h2⟩

theorem word_onLattice {s : State} (hs : s.OnLattice) {idx : WordIdx} {word : StateWord} (h : s.word idx = some word) :
    word.OnLattice := by
  obtain ⟨h0, h1, h2⟩ := hs
  unfold State.word at h
  split_ifs at h
  · exact Option.some.inj h ▸ h0
  · exact Option.some.inj h ▸ h1
  · exact Option.some.inj h ▸ h2

/-! ### The invariants -/

theorem exec_keeps_onLattice (i : Instr) (s t : State) (hs : s.OnLattice) (h : exec i s = .next t) : t.OnLattice := by
  rcases exec_alea_cases i s t h with ⟨h0, h1, h2, -⟩ | ⟨idx, x, rfl, hx⟩ | ⟨q, d, hq, ht⟩
  · unfold State.OnLattice
    rwa [h0, h1, h2]
  · have hlat : ∃ k, x = latticeF64 k := by
      rcases hx with rfl | ⟨y, hy, rfl⟩
      · exact ⟨s.n, hashValue_eq s.n⟩
      · obtain ⟨k, rfl⟩ := (onLattice_written_iff y).mp (word_onLattice hs hy)
        exact ⟨k - s.n, foldValue_lattice k s.n⟩
    obtain ⟨k, rfl⟩ := hlat
    exact setWord_onLattice hs idx k
  · obtain ⟨z, rfl, -⟩ := alea_of_onLattice hs hq
    simp only [drawStep_toAlea] at ht
    rcases ht with rfl | rfl
    · exact setAlea_onLattice s (drawInt z)
    · exact setAlea_onLattice s (drawInt (drawInt z))

theorem exec_keeps_carryBounded (i : Instr) (s t : State) (hs : s.OnLattice) (hc : s.CarryBounded)
    (h : exec i s = .next t) : t.CarryBounded := by
  unfold State.CarryBounded at hc ⊢
  rcases exec_alea_cases i s t h with ⟨-, -, -, hcar⟩ | ⟨idx, x, rfl, -⟩ | ⟨q, d, hq, ht⟩
  · rcases hcar with hcar | hcar <;> rw [hcar]
    · exact hc
    · decide
  · simpa using hc
  · obtain ⟨z, rfl, hz⟩ := alea_of_onLattice hs hq
    have hone := drawInt_carry_le z (hz ▸ hc)
    simp only [drawStep_toAlea] at ht
    rcases ht with rfl | rfl
    · exact hone
    · exact drawInt_carry_le (drawInt z) hone

theorem reset_onLattice : State.reset.OnLattice := ⟨.inl rfl, .inl rfl, .inl rfl⟩

theorem reset_carryBounded : State.reset.CarryBounded := by
  unfold State.CarryBounded
  decide

/-- Settles O39: a command writes a word only with the hash value, a folded lattice word, or a draw on lattice words. -/
theorem everyStepKeepsLattice : Obligations.EveryStepKeepsLattice := by
  unfold Obligations.EveryStepKeepsLattice
  intro s t
  exact step_keeps (fun _ _ hs => hs) (fun _ _ => reset_onLattice) (fun _ _ hs => hs) exec_keeps_onLattice

/-- Settles O40: on lattice words a draw is the integer draw, whose carry is `(A_MUL * k0 + c) / 2^32`. -/
theorem everyStepKeepsCarryBound : Obligations.EveryStepKeepsCarryBound := by
  unfold Obligations.EveryStepKeepsCarryBound
  intro s t
  exact step_keeps (P := fun u => u.OnLattice ∧ u.CarryBounded) (fun _ _ hs => hs)
    (fun _ _ => ⟨reset_onLattice, reset_carryBounded⟩) (fun _ _ hs => hs)
    (fun i u v ⟨hlat, hcar⟩ h => ⟨exec_keeps_onLattice i u v hlat h, exec_keeps_carryBounded i u v hlat hcar h⟩)

/-- Settles O42. -/
theorem resetMeetsInvariants : Obligations.ResetMeetsInvariants := by
  unfold Obligations.ResetMeetsInvariants State.ErrorsCarryNoData
  exact ⟨reset_onLattice, reset_carryBounded, by simp [State.reset]⟩

/-- A property that the reset state has whatever inputs wait, and that every step keeps, holds of every reachable
state. -/
theorem reachable_induction {P : State → Prop} (hreset : ∀ inputs, P { State.reset with inputs := inputs })
    (hstep : ∀ s t, P s → step s = .next t → P t) {s : State} (h : Reachable s) : P s := by
  induction h with
  | reset inputs => exact hreset inputs
  | step s t _ hst ih => exact hstep s t ih hst

/-- Settles O43, by induction on the run with the two step lemmas, then by the value of a lattice pattern. -/
theorem reachableStatesAreLatticeStates : Obligations.ReachableStatesAreLatticeStates := by
  unfold Obligations.ReachableStatesAreLatticeStates
  intro s hs
  obtain ⟨hlat, hcar⟩ : s.OnLattice ∧ s.CarryBounded :=
    reachable_induction (P := fun u => u.OnLattice ∧ u.CarryBounded)
      (fun _ => ⟨reset_onLattice, reset_carryBounded⟩) everyStepKeepsCarryBound hs
  refine ⟨fun idx x hx => ?_, hcar⟩
  obtain ⟨k, rfl⟩ := (onLattice_written_iff x).mp (word_onLattice hlat hx)
  exact ⟨⟨k, rfl, latticeF64_is k⟩, f64Value_latticeF64_nonneg k, f64Value_latticeF64_lt_one k, f64Neg_latticeF64 k⟩

/-! ### The access matrix -/

/-- Settles O33, by the cases of what a command can do. -/
theorem accessMatrixWrites : Obligations.AccessMatrixWrites := by
  unfold Obligations.AccessMatrixWrites
  intro i s t h
  rcases exec_cases i s t h with
    ⟨st, -, rfl⟩ | ⟨m, d, hi, rfl⟩ | ⟨d, -, rfl⟩ | ⟨idx, x, hidx, hi, rfl⟩ | ⟨hi, rfl⟩ | ⟨q, q', d, hi, -, rfl⟩
  · exact ⟨rfl, ⟨_, rfl⟩, fun _ _ => rfl, fun _ _ _ _ => rfl, fun _ _ _ _ _ _ => rfl⟩
  · refine ⟨rfl, ⟨_, rfl⟩, fun hminit hmabs => ?_, fun _ _ _ _ => rfl, fun _ _ _ _ _ _ => rfl⟩
    rcases hi with hi | ⟨chr, hi⟩
    · exact absurd hi hminit
    · exact absurd hi (hmabs chr)
  · exact ⟨rfl, ⟨_, rfl⟩, fun _ _ => rfl, fun _ _ _ _ => rfl, fun _ _ _ _ _ _ => rfl⟩
  · refine ⟨by simp, ⟨⟨.ok, 0#64⟩, by simp⟩, fun _ _ => by simp, fun _ _ _ _ => by simp,
      fun j haprime hafold _ _ _ => ?_⟩
    have hj : j ≠ idx := by
      rintro rfl
      rcases hi with hi | ⟨hi, -⟩
      · exact haprime hi
      · exact hafold hi
    exact (word_setWord s idx j x hidx).trans (if_neg hj)
  · exact ⟨rfl, ⟨_, rfl⟩, fun _ _ => rfl, fun hacinit _ _ _ => absurd hi hacinit, fun _ _ _ _ _ _ => rfl⟩
  · refine ⟨rfl, ⟨_, rfl⟩, fun _ _ => rfl, fun _ hdraw hu32 hf53 => ?_, fun _ _ _ hdraw hu32 hf53 => ?_⟩ <;>
      exact absurd hi (by simp [hdraw, hu32, hf53])

/-- Settles O34: `ACINIT` writes a constant, and a draw is a function of the Alea state, which `n` is no part of. -/
theorem drawFamilyIgnoresAccumulator : Obligations.DrawFamilyIgnoresAccumulator := by
  unfold Obligations.DrawFamilyIgnoresAccumulator
  intro i s t m hi h
  by_cases hac : i = .acinit
  · subst hac
    obtain rfl := Host.Outcome.next.inj h
    rfl
  obtain ⟨next, data, hexec⟩ := exec_draw_family i (by tauto)
  have halea : (s.setN m).alea = s.alea := rfl
  cases hq : s.alea with
  | none =>
    obtain rfl := Host.Outcome.next.inj (h.symm.trans ((hexec s).1 hq))
    exact (hexec (s.setN m)).1 (halea.trans hq)
  | some q =>
    obtain rfl := Host.Outcome.next.inj (h.symm.trans ((hexec s).2 q hq))
    exact (hexec (s.setN m)).2 q (halea.trans hq)

/-- Settles O35: each Mash command is a write of `n` and a response, both functions of the old `n`. -/
theorem mashFamilyIgnoresAlea : Obligations.MashFamilyIgnoresAlea := by
  unfold Obligations.MashFamilyIgnoresAlea
  rintro i s t a b d k (rfl | rfl | ⟨chr, rfl⟩) h <;> obtain rfl := Host.Outcome.next.inj h <;> rfl

/-! ### The flags -/

theorem w_setWord (s : State) (i j : WordIdx) (x : F64) (h : legalIdx i) :
    (s.setWord i x).w j = if j = i then true else s.w j := by
  simp only [State.w, word_setWord s i j x h]
  split_ifs <;> rfl

theorem w_of_written {s : State} {idx : WordIdx} {x : F64} (h : s.word idx = some (.written x)) : s.w idx = true := by
  simp [State.w, h, StateWord.flag]

/-- Writing the Alea state back leaves the flags as they were, since all three were 1 (R110). -/
theorem w_setAlea {s : State} {q : Alea} (h : s.alea = some q) (q' : Alea) (j : WordIdx) :
    (s.setAlea q').w j = s.w j := by
  obtain ⟨h0, h1, h2, -⟩ := (alea_eq_some_iff s q).mp h
  simp only [State.w, State.word, setAlea_s0, setAlea_s1, setAlea_s2, h0, h1, h2]
  split_ifs <;> rfl

/-- A command leaves a flag as it was, unless it is `APRIME` of that word, which sets it (R24). -/
theorem exec_flag (i : Instr) (s t : State) (h : exec i s = .next t) (j : WordIdx) :
    t.w j = s.w j ∨ (i = .aprime j ∧ t.w j = true) := by
  rcases exec_cases i s t h with
    ⟨st, -, rfl⟩ | ⟨m, d, -, rfl⟩ | ⟨d, -, rfl⟩ | ⟨idx, x, hidx, hi, rfl⟩ | ⟨-, rfl⟩ | ⟨q, q', d, -, hq, rfl⟩
  · exact .inl rfl
  · exact .inl rfl
  · exact .inl rfl
  · have hw : ((s.setWord idx x).succeed 0#64).w j = if j = idx then true else s.w j := w_setWord s idx j x hidx
    by_cases hj : j = idx
    · subst hj
      rw [if_pos rfl] at hw
      rcases hi with rfl | ⟨rfl, y, hy⟩
      · exact .inr ⟨rfl, hw⟩
      · exact .inl (hw.trans (w_of_written hy).symm)
    · exact .inl (hw.trans (if_neg hj))
  · exact .inl rfl
  · exact .inl (w_setAlea hq q' j)

/-- Without a reset as its input, a step leaves a flag as it was or runs `APRIME` of that word, which sets it. -/
theorem step_flag (s t : State) (h : step s = .next t) (j : WordIdx) :
    (∃ rest, s.inputs = .reset :: rest ∧ t.w j = false) ∨ t.w j = s.w j ∨
    (t.w j = true ∧ ∃ cmd rest, s.inputs = .command cmd :: rest ∧ decode cmd = .ok (.aprime j)) := by
  rcases step_cases s with
    ⟨-, hst⟩ | ⟨rest, hin, hst⟩ | ⟨cmd, rest, e, -, -, hst⟩ | ⟨cmd, rest, i, hin, hdec, hst⟩
  · obtain rfl := Host.Outcome.next.inj (h.symm.trans hst)
    exact .inr (.inl rfl)
  · obtain rfl := Host.Outcome.next.inj (h.symm.trans hst)
    refine .inl ⟨rest, hin, ?_⟩
    simp only [State.w, State.word, applyReset_s0, applyReset_s1, applyReset_s2]
    split_ifs <;> rfl
  · obtain rfl := Host.Outcome.next.inj (h.symm.trans hst)
    exact .inr (.inl rfl)
  · rcases exec_flag i _ t (hst.symm.trans h) j with hw | ⟨rfl, hw⟩
    · exact .inr (.inl hw)
    · exact .inr (.inr ⟨hw, cmd, rest, hin, hdec⟩)

/-- Settles O38, by what a step does to one flag. -/
theorem flagsSetByAprimeClearedByReset : Obligations.FlagsSetByAprimeClearedByReset := by
  unfold Obligations.FlagsSetByAprimeClearedByReset
  constructor
  · intro s t idx hset h
    rcases step_flag s t h idx with ⟨rest, hin, -⟩ | hsame | ⟨hw, -⟩
    · exact .inr ⟨rest, hin⟩
    · exact .inl (hsame.trans hset)
    · exact .inl hw
  · intro s t idx hclear h hset
    rcases step_flag s t h idx with ⟨-, -, hw⟩ | hsame | ⟨-, haprime⟩
    · simp [hset] at hw
    · simp [hset, hclear] at hsame
    · exact haprime

/-! ### Reset -/

/-- Settles O12: the fields of the reset state by definition, the flags index by index. -/
theorem resetLeavesDocumentedValues : Obligations.ResetLeavesDocumentedValues := by
  unfold Obligations.ResetLeavesDocumentedValues
  exact ⟨rfl, rfl, rfl, rfl, rfl, by decide⟩

end Sys2Proof.Machine
end

section
/-!
SUPPORT. Proof of the statement about the step (spec/20_memory.md R44): the command word next among the inputs.
-/

namespace Sys2Proof.Machine

/-- A command word that decodes runs as its command on the state without it (R44). -/
theorem step_command_of_decode_ok {s : State} {cmd : Word} {rest : List HostInput} {i : Instr}
    (hin : s.inputs = .command cmd :: rest) (hdec : decode cmd = .ok i) : step s = exec i { s with inputs := rest } := by
  simp only [step, nextInput_cons s _ rest hin, hdec]

/-- A command word that does not decode is answered with the decoder's error (R57). -/
theorem step_command_of_decode_error {s : State} {cmd : Word} {rest : List HostInput} {e : DecodeError}
    (hin : s.inputs = .command cmd :: rest) (hdec : decode cmd = .error e) :
    step s = .next ({ s with inputs := rest }.fail (rejectStatus e)) := by
  simp only [step, nextInput_cons s _ rest hin, hdec]

/-- Settles O8, by the two outcomes of decoding the word. -/
theorem stepRunsDecodedInstruction : Obligations.StepRunsDecodedInstruction := by
  unfold Obligations.StepRunsDecodedInstruction
  exact ⟨fun _ _ _ _ => step_command_of_decode_ok, fun _ _ _ _ => step_command_of_decode_error⟩

end Sys2Proof.Machine
end

section
/-!
SUPPORT. Proofs of the statements about the encoding (spec/30_encoding.md R54 to R60): the decoder accepts a word exactly
when it is the word of a legal command, and the opcode map covers exactly the words of commands.
-/

namespace Sys2Proof

/-! ### The two fields of a command's word -/

/-- The opcode of a command, `cmd[31:24]` of its word (R56). -/
def Instr.opcode : Instr → BitVec 8
  | .minit => 0x10#8
  | .mabs _ => 0x11#8
  | .mout => 0x12#8
  | .aprime _ => 0x20#8
  | .afold _ => 0x21#8
  | .acinit => 0x22#8
  | .draw => 0x30#8
  | .u32 => 0x31#8
  | .f53 => 0x32#8

/-- The operand field of a command, `cmd[23:0]` of its word (R54). -/
def Instr.operand : Instr → BitVec 24
  | .mabs chr => chr.setWidth 24
  | .aprime idx | .afold idx => idx.setWidth 24
  | .minit | .mout | .acinit | .draw | .u32 | .f53 => 0#24

@[simp] theorem opcField_encode (i : Instr) : opcField (encode i) = i.opcode := by
  cases i with
  | mabs chr =>
    have hchr := chr.isLt
    apply BitVec.eq_of_toNat_eq
    rw [opcField_toNat, encode_mabs_toNat, Instr.opcode, BitVec.toNat_ofNat]
    omega
  | aprime idx => revert idx; decide
  | afold idx => revert idx; decide
  | _ => decide

@[simp] theorem argField_encode (i : Instr) : argField (encode i) = i.operand := by
  cases i with
  | mabs chr =>
    have hchr := chr.isLt
    apply BitVec.eq_of_toNat_eq
    rw [argField_toNat, encode_mabs_toNat, Instr.operand, BitVec.toNat_setWidth]
    omega
  | aprime idx => revert idx; decide
  | afold idx => revert idx; decide
  | _ => decide

/-- A word is given by its opcode and its operand field (R51). -/
theorem word_eq_of_fields {a b : Word} (hopc : opcField a = opcField b) (harg : argField a = argField b) : a = b := by
  have hhigh := congrArg BitVec.toNat hopc
  have hlow := congrArg BitVec.toNat harg
  rw [opcField_toNat, opcField_toNat] at hhigh
  rw [argField_toNat, argField_toNat] at hlow
  apply BitVec.eq_of_toNat_eq
  omega

/-! ### The three formats -/

/-- What a format's check accepts. -/
theorem ite_ok_eq_ok_iff {p : Prop} [Decidable p] {e : DecodeError} {i j : Instr} :
    (if p then .ok i else .error e : Except DecodeError Instr) = .ok j ↔ p ∧ i = j := by
  split_ifs with hp <;> simp [hp]

/-- An operand field is the value `x` of its low `k` bits when the bits above are zero. -/
theorem operand_eq_setWidth_iff {k : Nat} (hk : k ≤ 24) (arg : BitVec 24) (x : BitVec k) :
    arg = x.setWidth 24 ↔ arg.extractLsb' k (24 - k) = 0#(24 - k) ∧ arg.extractLsb' 0 k = x := by
  constructor
  · rintro rfl
    constructor <;> ext j hj
    · simp
    · have hj24 : j < 24 := hj.trans_le hk
      simp [hj24, BitVec.getLsbD_eq_getElem hj]
  · rintro ⟨hhigh, rfl⟩
    ext j hj
    by_cases hjk : j < k
    · simp [hjk, hj]
    · have hbit := congrArg (BitVec.getLsbD · (j - k)) hhigh
      have hpos : k + (j - k) = j := by omega
      have hlt : j - k < 24 - k := by omega
      simpa [hjk, hpos, hlt, BitVec.getLsbD_eq_getElem hj] using hbit

theorem formatN_eq_ok_iff {i j : Instr} {arg : BitVec 24} : formatN i arg = .ok j ↔ arg = 0#24 ∧ i = j :=
  ite_ok_eq_ok_iff

theorem formatC_eq_ok_iff {mk : ChrCode → Instr} {arg : BitVec 24} {j : Instr} :
    formatC mk arg = .ok j ↔ ∃ chr : ChrCode, arg = chr.setWidth 24 ∧ mk chr = j := by
  simp [formatC, ite_ok_eq_ok_iff, operand_eq_setWidth_iff (k := 21) (by norm_num), and_assoc]

theorem formatI_eq_ok_iff {mk : WordIdx → Instr} {arg : BitVec 24} {j : Instr} :
    formatI mk arg = .ok j ↔ ∃ idx : WordIdx, arg = idx.setWidth 24 ∧ legalIdx idx ∧ mk idx = j := by
  simp [formatI, ite_ok_eq_ok_iff, operand_eq_setWidth_iff (k := 2) (by norm_num), and_assoc]

/-! ### The decoder -/

/-- R57 as an equivalence: a word decodes to a command exactly when its two fields are the command's and the command is
legal. -/
theorem decode_eq_ok_iff_fields (cmd : Word) (i : Instr) :
    decode cmd = .ok i ↔ opcField cmd = i.opcode ∧ argField cmd = i.operand ∧ i.wellFormed = true := by
  constructor
  · intro h
    unfold decode at h
    split_ifs at h with hopc hopc hopc hopc hopc hopc hopc hopc hopc
    · obtain ⟨harg, rfl⟩ := formatN_eq_ok_iff.mp h
      exact ⟨hopc, harg, rfl⟩
    · obtain ⟨chr, harg, rfl⟩ := formatC_eq_ok_iff.mp h
      exact ⟨hopc, harg, rfl⟩
    · obtain ⟨harg, rfl⟩ := formatN_eq_ok_iff.mp h
      exact ⟨hopc, harg, rfl⟩
    · obtain ⟨idx, harg, hidx, rfl⟩ := formatI_eq_ok_iff.mp h
      exact ⟨hopc, harg, hidx⟩
    · obtain ⟨idx, harg, hidx, rfl⟩ := formatI_eq_ok_iff.mp h
      exact ⟨hopc, harg, hidx⟩
    · obtain ⟨harg, rfl⟩ := formatN_eq_ok_iff.mp h
      exact ⟨hopc, harg, rfl⟩
    · obtain ⟨harg, rfl⟩ := formatN_eq_ok_iff.mp h
      exact ⟨hopc, harg, rfl⟩
    · obtain ⟨harg, rfl⟩ := formatN_eq_ok_iff.mp h
      exact ⟨hopc, harg, rfl⟩
    · obtain ⟨harg, rfl⟩ := formatN_eq_ok_iff.mp h
      exact ⟨hopc, harg, rfl⟩
  · rintro ⟨hopc, harg, hwf⟩
    cases i with
    | mabs chr => simpa [decode, hopc, Instr.opcode] using formatC_eq_ok_iff.mpr ⟨chr, harg, rfl⟩
    | aprime idx => simpa [decode, hopc, Instr.opcode] using formatI_eq_ok_iff.mpr ⟨idx, harg, hwf, rfl⟩
    | afold idx => simpa [decode, hopc, Instr.opcode] using formatI_eq_ok_iff.mpr ⟨idx, harg, hwf, rfl⟩
    | _ => simpa [decode, hopc, Instr.opcode] using formatN_eq_ok_iff.mpr ⟨harg, rfl⟩

/-- A word decodes to a command exactly when the command is legal and the word is its encoding. -/
theorem decode_eq_ok_iff (cmd : Word) (i : Instr) : decode cmd = .ok i ↔ i.wellFormed = true ∧ encode i = cmd := by
  rw [decode_eq_ok_iff_fields]
  constructor
  · rintro ⟨hopc, harg, hwf⟩
    exact ⟨hwf, word_eq_of_fields (by rw [opcField_encode, hopc]) (by rw [argField_encode, harg])⟩
  · rintro ⟨hwf, rfl⟩
    exact ⟨opcField_encode i, argField_encode i, hwf⟩

/-- Settles O1: the fields of a command's word are the command's, and the decoder reads only the fields. -/
theorem decodeOfEncode : Obligations.DecodeOfEncode := by
  unfold Obligations.DecodeOfEncode
  exact fun i hwf => (decode_eq_ok_iff _ i).mpr ⟨hwf, rfl⟩

/-- Settles O2: an accepted word has the fields of the command read, and the two fields are the whole word. -/
theorem encodeOfDecode : Obligations.EncodeOfDecode := by
  unfold Obligations.EncodeOfDecode
  exact fun cmd i => (decode_eq_ok_iff cmd i).mp

/-! ### The opcode map -/

/-- Every command's word is covered by the row of its mnemonic (R56). -/
theorem encode_covered_by_own_row (i : Instr) : Laws.RowMatch.Statement i := by
  cases i with
  | minit => exact Laws.RowMatch.minit
  | mabs chr => exact Laws.RowMatch.mabs chr
  | mout => exact Laws.RowMatch.mout
  | aprime idx => exact Laws.RowMatch.aprime idx
  | afold idx => exact Laws.RowMatch.afold idx
  | acinit => exact Laws.RowMatch.acinit
  | draw => exact Laws.RowMatch.draw
  | u32 => exact Laws.RowMatch.u32
  | f53 => exact Laws.RowMatch.f53

/-- A word is its part under a mask of the high bits, with the low bits put back. -/
theorem and_high_mask_or_low (k : Nat) (hk : k ≤ 32) (cmd : Word) :
    (cmd &&& BitVec.ofNat 32 (2 ^ 32 - 2 ^ k)) ||| (cmd.extractLsb' 0 k).setWidth 32 = cmd := by
  have hlow : cmd.toNat % 2 ^ k < 2 ^ k := Nat.mod_lt _ (by positivity)
  have hlt : cmd.toNat % 2 ^ k < 2 ^ 32 := (Nat.mod_le _ _).trans_lt cmd.isLt
  apply BitVec.eq_of_toNat_eq
  rw [BitVec.toNat_or, and_high_mask_toNat k hk, BitVec.toNat_setWidth, BitVec.extractLsb'_toNat, Nat.shiftRight_zero,
    Nat.mod_eq_of_lt hlt, or_low_bits _ _ k hlow, Nat.div_add_mod']

/-- A word a row covers is the word of a command with the row's mnemonic, legal or not (R56). -/
theorem exists_encode_of_covers {row : OpcodeRow} (hrow : row ∈ opcodeTable) {cmd : Word} (hcov : row.covers cmd = true) :
    ∃ i, rowMnemonic i = row.mnemonic ∧ encode i = cmd := by
  rw [OpcodeRow.covers, beq_iff_eq] at hcov
  have hfull (h : row.mask = BitVec.allOnes 32) : row.pattern = cmd := by rw [← hcov, h, BitVec.and_allOnes]
  have hfield (k : Nat) (hk : k ≤ 32) (h : row.mask = BitVec.ofNat 32 (2 ^ 32 - 2 ^ k)) :
      row.pattern ||| (cmd.extractLsb' 0 k).setWidth 32 = cmd := by
    rw [← hcov, h, and_high_mask_or_low k hk]
  simp only [opcodeTable, List.mem_cons, List.not_mem_nil, or_false] at hrow
  rcases hrow with rfl | rfl | rfl | rfl | rfl | rfl | rfl | rfl | rfl
  · exact ⟨.minit, rfl, hfull rfl⟩
  · exact ⟨.mabs _, rfl, hfield 21 (by norm_num) rfl⟩
  · exact ⟨.mout, rfl, hfull rfl⟩
  · exact ⟨.aprime _, rfl, hfield 2 (by norm_num) rfl⟩
  · exact ⟨.afold _, rfl, hfield 2 (by norm_num) rfl⟩
  · exact ⟨.acinit, rfl, hfull rfl⟩
  · exact ⟨.draw, rfl, hfull rfl⟩
  · exact ⟨.u32, rfl, hfull rfl⟩
  · exact ⟨.f53, rfl, hfull rfl⟩

/-- A command is legal exactly when its word, if it is one of `APRIME` or `AFOLD`, does not end in the reserved index
(R60). -/
theorem wellFormed_iff_low_bits (i : Instr) :
    i.wellFormed = true ↔
      ((rowMnemonic i = "APRIME" ∨ rowMnemonic i = "AFOLD") → (encode i).extractLsb' 0 2 ≠ 3#2) := by
  cases i with
  | mabs chr => simp [Instr.wellFormed, rowMnemonic]
  | aprime idx => revert idx; decide
  | afold idx => revert idx; decide
  | _ => decide

/-- The patterns of two rows differ under both masks, unless the rows are the same. -/
theorem row_eq_of_common_bits :
    ∀ r1 ∈ opcodeTable, ∀ r2 ∈ opcodeTable, r1.pattern &&& r2.mask = r2.pattern &&& r1.mask → r1 = r2 := by
  decide

theorem row_eq_of_covers {r1 r2 : OpcodeRow} (h1 : r1 ∈ opcodeTable) (h2 : r2 ∈ opcodeTable) {cmd : Word}
    (hcov1 : r1.covers cmd = true) (hcov2 : r2.covers cmd = true) : r1 = r2 := by
  rw [OpcodeRow.covers, beq_iff_eq] at hcov1 hcov2
  apply row_eq_of_common_bits r1 h1 r2 h2
  rw [← hcov1, ← hcov2, BitVec.and_assoc, BitVec.and_assoc, BitVec.and_comm r1.mask]

theorem exists_row_of_decode {cmd : Word} {i : Instr} (h : decode cmd = .ok i) :
    ∃ row ∈ opcodeTable, row.covers cmd = true ∧ row.mnemonic = rowMnemonic i := by
  obtain ⟨-, rfl⟩ := (decode_eq_ok_iff cmd i).mp h
  obtain ⟨row, hrow, hname, hcov⟩ := encode_covered_by_own_row i
  exact ⟨row, hrow, hcov, hname⟩

/-- Settles O3: the rows cover exactly the words of the commands, of which the legal ones decode. -/
theorem legalWordsAreTableInstances : Obligations.LegalWordsAreTableInstances := by
  unfold Obligations.LegalWordsAreTableInstances
  refine ⟨fun cmd => ⟨?_, ?_⟩, fun cmd i => exists_row_of_decode, fun cmd r1 h1 r2 h2 => row_eq_of_covers h1 h2⟩
  · rintro ⟨i, hdec⟩
    obtain ⟨row, hrow, hcov, hname⟩ := exists_row_of_decode hdec
    obtain ⟨hwf, rfl⟩ := (decode_eq_ok_iff cmd i).mp hdec
    exact ⟨row, hrow, hcov, hname ▸ (wellFormed_iff_low_bits i).mp hwf⟩
  · rintro ⟨row, hrow, hcov, hidx⟩
    obtain ⟨i, hname, rfl⟩ := exists_encode_of_covers hrow hcov
    exact ⟨i, decodeOfEncode i ((wellFormed_iff_low_bits i).mpr (hname ▸ hidx))⟩

/-- Settles O4, by running the decoder on the thirteen words. -/
theorem specWordsDecode : Obligations.SpecWordsDecode := by
  unfold Obligations.SpecWordsDecode
  decide

end Sys2Proof
end

section
/-!
SUPPORT. Proof of the invariant that an error response carries no data (spec/30_encoding.md R52).
-/

namespace Sys2Proof.Machine

/-- One more response keeps the invariant, unless it is an error with data. -/
theorem errorsCarryNoData_of_append {s t : State} {r : Response} (hs : s.ErrorsCarryNoData)
    (ht : t.responses = s.responses ++ [r]) (hr : r.status ≠ .ok → r.data = 0#64) : t.ErrorsCarryNoData := by
  unfold State.ErrorsCarryNoData at hs ⊢
  rw [ht]
  simpa [or_imp, forall_and] using ⟨hs, hr⟩

/-- A command fails without data or succeeds, with one response. -/
theorem exec_responses (i : Instr) (s t : State) (h : exec i s = .next t) :
    ∃ r, t.responses = s.responses ++ [r] ∧ (r.status ≠ .ok → r.data = 0#64) := by
  rcases exec_cases i s t h with
    ⟨st, -, rfl⟩ | ⟨m, d, -, rfl⟩ | ⟨d, -, rfl⟩ | ⟨idx, x, -, -, rfl⟩ | ⟨-, rfl⟩ | ⟨q, q', d, -, -, rfl⟩
  · exact ⟨⟨st, 0#64⟩, rfl, fun _ => rfl⟩
  · exact ⟨⟨.ok, d⟩, rfl, fun hok => absurd rfl hok⟩
  · exact ⟨⟨.ok, d⟩, rfl, fun hok => absurd rfl hok⟩
  · exact ⟨⟨.ok, 0#64⟩, by simp, fun _ => rfl⟩
  · exact ⟨⟨.ok, 0#64⟩, rfl, fun _ => rfl⟩
  · exact ⟨⟨.ok, d⟩, rfl, fun hok => absurd rfl hok⟩

/-- Settles O41: a reset and a taken input leave the responses, and everything else appends one that is `ok` or has no
data. -/
theorem everyStepKeepsErrorsWithoutData : Obligations.EveryStepKeepsErrorsWithoutData := by
  unfold Obligations.EveryStepKeepsErrorsWithoutData
  intro s t
  refine step_keeps (P := State.ErrorsCarryNoData) (fun _ _ hs => hs) (fun _ hs => hs)
    (fun u st hu => errorsCarryNoData_of_append hu (fail_responses u st) fun _ => rfl) ?_
  intro i u v hu h
  obtain ⟨r, hv, hr⟩ := exec_responses i u v h
  exact errorsCarryNoData_of_append hu hv hr

end Sys2Proof.Machine
end

section
/-!
SUPPORT. Proofs of the statements about the numerics (spec/40_numerics.md R70 to R82): what `rn` does on every exact
real, the operations that round once, truncation and floor, the fields of returned patterns, the constants, and the
range of a draw on any `s[0]` in `[0, 1)`.
-/

namespace Sys2Proof.Machine

/-! ### Rounding of every exact real -/

theorem abs_exactValue (x : Exact) : |exactValue x| = (x.m.natAbs : ℚ) * 2 ^ x.e := by
  rw [exactValue, abs_mul, abs_of_pos (by positivity : (0 : ℚ) < 2 ^ x.e), Nat.cast_natAbs, Int.cast_abs]

theorem exactValue_pos_iff (x : Exact) : 0 < exactValue x ↔ 0 < x.m := by
  rw [exactValue, mul_pos_iff_of_pos_right (by positivity), Int.cast_pos]

theorem exactValue_nonneg_iff (x : Exact) : 0 ≤ exactValue x ↔ 0 ≤ x.m :=
  not_lt.symm.trans ((not_congr (exactValue_lt_zero_iff x)).trans not_lt)

theorem natAbs_ne_zero_of_exactValue {x : Exact} (h : exactValue x ≠ 0) : x.m.natAbs ≠ 0 :=
  fun hm => h ((exactValue_eq_zero_iff x).mpr (Int.natAbs_eq_zero.mp hm))

theorem intLog_exactValue {x : Exact} (h : exactValue x ≠ 0) :
    Int.log 2 |exactValue x| = (x.m.natAbs.log2 : ℤ) + x.e := by
  rw [abs_exactValue, floor_log2 _ _ (natAbs_ne_zero_of_exactValue h)]

theorem log2_lt_of_abs_lt {x : Exact} (h : exactValue x ≠ 0) {n : ℤ} (hn : |exactValue x| < 2 ^ n) :
    (x.m.natAbs.log2 : ℤ) + x.e < n := by
  rw [← intLog_exactValue h, ← Int.lt_zpow_iff_log_lt (by norm_num) (abs_pos.mpr h)]
  exact_mod_cast hn

theorem le_log2_of_le_abs {x : Exact} (h : exactValue x ≠ 0) {n : ℤ} (hn : 2 ^ n ≤ |exactValue x|) :
    n ≤ (x.m.natAbs.log2 : ℤ) + x.e := by
  rw [← intLog_exactValue h, ← Int.zpow_le_iff_le_log (by norm_num) (abs_pos.mpr h)]
  exact_mod_cast hn

theorem nearestEven_neg {v u : ℚ} {M : ℤ} (h : NearestEven v u M) : NearestEven (-v) u (-M) := by
  obtain ⟨hle, htie⟩ := h
  have habs : |-v - (-M : ℤ) * u| = |v - M * u| := by
    rw [← abs_neg]
    push_cast
    ring_nf
  unfold NearestEven
  rw [habs]
  exact ⟨hle, fun hh => (htie hh).neg⟩

/-- A multiplier nearest to the magnitude is, with the sign, nearest to the value. -/
theorem nearestEven_sign {x : Exact} (h : exactValue x ≠ 0) {u : ℚ} {M : ℤ} (hM : NearestEven |exactValue x| u M) :
    NearestEven (exactValue x) u (x.m.sign * M) := by
  rcases lt_or_gt_of_ne h with hneg | hpos
  · rw [Int.sign_eq_neg_one_of_neg ((exactValue_lt_zero_iff x).mp hneg), neg_one_mul]
    rw [abs_of_neg hneg] at hM
    simpa using nearestEven_neg hM
  · rwa [Int.sign_eq_one_of_pos ((exactValue_pos_iff x).mp hpos), one_mul, ← abs_of_pos hpos]

/-- `rn` is the rounding of R71 on every exact real that is not zero and below `2^1023`. -/
theorem rn_roundsTiesToEven {x : Exact} (h : exactValue x ≠ 0) (hb : |exactValue x| < 2 ^ 1023) :
    RoundsTiesToEven (exactValue x) (rn x) := by
  have hlog : (x.m.natAbs.log2 : ℤ) + x.e < 1023 := log2_lt_of_abs_lt h (by exact_mod_cast hb)
  have hm : x.m ≠ 0 := mt (exactValue_eq_zero_iff x).mpr h
  have hq : max (Int.log 2 |exactValue x|) (-1022) - 52 = quantumExp x.m.natAbs x.e := by
    rw [intLog_exactValue h, quantumExp]
  have hnear := roundToQuantum_nearest x.m.natAbs x.e (quantumExp x.m.natAbs x.e)
  rw [← abs_exactValue] at hnear
  unfold RoundsTiesToEven
  rw [hq]
  refine ⟨_, ?_, nearestEven_sign h hnear⟩
  simpa [mul_assoc] using rn_value x hm hlog

/-- From `2^1024` on the packed magnitude is that of infinity (R71). -/
theorem rnMagnitude_overflow {a : ℕ} {e : ℤ} (ha : a ≠ 0) (h : 1024 ≤ (a.log2 : ℤ) + e) :
    rnMagnitude a e = 2047 * 2 ^ 52 := by
  have hq : quantumExp a e = (a.log2 : ℤ) + e - 52 := by unfold quantumExp; omega
  have hge : 2 ^ 52 ≤ roundToQuantum a e (quantumExp a e) := by
    apply roundToQuantum_ge
    rw [hq, sub_add_cancel]
    exact_mod_cast (Int.zpow_le_iff_le_log (b := 2) (by norm_num) (by positivity)).mpr (floor_log2 a e ha).ge
  change packMagnitude (roundToQuantum a e (quantumExp a e)) (quantumExp a e) = _
  rw [packMagnitude, Nat.min_eq_right]
  have : 2046 ≤ (quantumExp a e + 1074).toNat := by omega
  omega

/-- The magnitude from `2^1024` on, as `rn` uses it. -/
theorem rnMagnitude_overflow_of_abs {x : Exact} (h : 2 ^ 1024 ≤ |exactValue x|) :
    x.m ≠ 0 ∧ rnMagnitude x.m.natAbs x.e = 2047 * 2 ^ 52 := by
  have hne : exactValue x ≠ 0 := abs_pos.mp (lt_of_lt_of_le (by positivity) h)
  exact ⟨mt (exactValue_eq_zero_iff x).mpr hne,
    rnMagnitude_overflow (natAbs_ne_zero_of_exactValue hne) (le_log2_of_le_abs hne (by exact_mod_cast h))⟩

theorem rn_overflow_pos {x : Exact} (h : 2 ^ 1024 ≤ exactValue x) : rn x = 0x7FF0000000000000#64 := by
  have hpos : 0 < exactValue x := lt_of_lt_of_le (by positivity) h
  obtain ⟨hm, hmag⟩ := rnMagnitude_overflow_of_abs (h.trans (le_abs_self _))
  rw [rn, if_neg hm, if_neg ((exactValue_pos_iff x).mp hpos).not_gt, hmag]
  rfl

theorem rn_overflow_neg {x : Exact} (h : exactValue x ≤ -2 ^ 1024) : rn x = 0xFFF0000000000000#64 := by
  have hneg : exactValue x < 0 := lt_of_le_of_lt h (neg_lt_zero.mpr (by positivity))
  obtain ⟨hm, hmag⟩ := rnMagnitude_overflow_of_abs ((le_neg.mp h).trans (neg_le_abs _))
  rw [rn, if_neg hm, if_pos ((exactValue_lt_zero_iff x).mp hneg), hmag]
  rfl

/-- Settles O44: the four ranges of the exact real. -/
theorem rnRoundsTiesToEven : Obligations.RnRoundsTiesToEven := by
  unfold Obligations.RnRoundsTiesToEven
  exact ⟨fun _ => rn_roundsTiesToEven, rn_zero, fun _ => rn_overflow_pos, fun _ => rn_overflow_neg⟩

/-! ### The three operations -/

theorem rn_of_eq_zero {x : Exact} {v : ℚ} (hx : exactValue x = v) (hv : v = 0) : rn x = 0#64 :=
  rn_zero x (hx.trans hv)

theorem rn_rounds {x : Exact} {v : ℚ} (hx : exactValue x = v) (hv : v ≠ 0) (hb : |v| < 2 ^ 1023) :
    RoundsTiesToEven v (rn x) := by
  subst hx
  exact rn_roundsTiesToEven hv hb

theorem f64Is_value {x : F64} (h : f64Finite x) : f64Is x (f64Value x) := ⟨h, rfl⟩

theorem negZero_is : f64Is negZero 0 := by
  have h : f64Exact negZero = some ⟨0, 0⟩ := by decide
  simpa [exactValue] using f64Is_of_exact h

theorem fmul_eq_rn {a b : F64} {u v : ℚ} (ha : f64Is a u) (hb : f64Is b v) :
    ∃ z, exactValue z = u * v ∧ fmul a b = rn z := by
  obtain ⟨x, -, rfl⟩ := exact_of_f64Is ha
  obtain ⟨y, -, rfl⟩ := exact_of_f64Is hb
  exact ⟨_, exactValue_mul x y, fmul_eq ha hb _ (exactValue_mul x y)⟩

theorem fadd_eq_rn {a b : F64} {u v : ℚ} (ha : f64Is a u) (hb : f64Is b v) (hn : a ≠ negZero ∨ b ≠ negZero) :
    ∃ z, exactValue z = u + v ∧ fadd a b = rn z := by
  obtain ⟨x, -, rfl⟩ := exact_of_f64Is ha
  obtain ⟨y, -, rfl⟩ := exact_of_f64Is hb
  exact ⟨_, exactValue_add x y, fadd_eq ha hb hn _ (exactValue_add x y)⟩

theorem fsub_eq_rn {a b : F64} {u v : ℚ} (ha : f64Is a u) (hb : f64Is b v) :
    ∃ z, exactValue z = u - v ∧ fsub a b = rn z := by
  obtain ⟨x, -, rfl⟩ := exact_of_f64Is ha
  obtain ⟨y, -, rfl⟩ := exact_of_f64Is hb
  have hz : exactValue (exactAdd x (exactNeg y)) = exactValue x - exactValue y := by
    rw [exactValue_add, exactValue_neg, sub_eq_add_neg]
  exact ⟨_, hz, fsub_eq ha hb _ hz⟩

/-- Settles O45: each operation is `rn` of an exact real of the exact result's value, and `rn` rounds. -/
theorem arithmeticRoundsOnce : Obligations.ArithmeticRoundsOnce := by
  unfold Obligations.ArithmeticRoundsOnce
  intro a b ha hb
  obtain ⟨p, hp, hmul⟩ := fmul_eq_rn (f64Is_value ha) (f64Is_value hb)
  obtain ⟨d, hd, hsub⟩ := fsub_eq_rn (f64Is_value ha) (f64Is_value hb)
  have hadd := fadd_eq_rn (f64Is_value ha) (f64Is_value hb)
  rw [hmul, hsub]
  refine ⟨rn_of_eq_zero hp, rn_rounds hp, fun hz hn => ?_, fun hne hlt => ?_, fun heq => ?_, fun hne => ?_⟩
  · obtain ⟨z, hsum, hrn⟩ := hadd (not_and_or.mp hn)
    rw [hrn, rn_of_eq_zero hsum hz]
  · have hn : a ≠ negZero ∨ b ≠ negZero := by
      refine not_and_or.mp fun ⟨ha', hb'⟩ => hne ?_
      rw [ha', hb', negZero_is.2, add_zero]
    obtain ⟨z, hsum, hrn⟩ := hadd hn
    exact hrn ▸ rn_rounds hsum hne hlt
  · exact rn_of_eq_zero hd (sub_eq_zero.mpr heq)
  · exact rn_rounds hd (sub_ne_zero.mpr hne)

/-! ### Truncation and floor -/

theorem toNat_ofInt_word (z : ℤ) : ((BitVec.ofInt 32 z).toNat : ℤ) = z % 2 ^ 32 := by
  rw [BitVec.toNat_ofInt]
  omega

/-- Settles O47: the exact integer part is the floor on the one side of zero and the negated floor on the other. -/
theorem truncU32IsIntegerPartModulo : Obligations.TruncU32IsIntegerPartModulo := by
  unfold Obligations.TruncU32IsIntegerPartModulo
  intro x hx
  obtain ⟨w, hw, hval⟩ := exact_of_f64Is (f64Is_value hx)
  have htrunc : exactTrunc w = if 0 ≤ f64Value x then ⌊f64Value x⌋ else -⌊-f64Value x⌋ := by
    rw [← hval]
    split_ifs with h
    · exact exactTrunc_of_nonneg w h
    · exact exactTrunc_of_nonpos w (not_le.mp h).le
  rw [← htrunc]
  simp only [truncU32, hw, toNat_ofInt_word]

theorem truncInt_toNat {x : F64} {v : ℚ} (h : f64Is x v) (hv : 0 ≤ v) (hlt : v < 2 ^ 32) :
    ((truncInt x).toNat : ℤ) = ⌊v⌋ := by
  have hlo : 0 ≤ ⌊v⌋ := Int.floor_nonneg.mpr hv
  have hhi : ⌊v⌋ < 2 ^ 32 := Int.floor_lt.mpr (by exact_mod_cast hlt)
  rw [truncInt_eq h hv hlt, toNat_ofInt_word, Int.emod_eq_of_lt hlo hhi]

/-- Settles O48: both conversions are the floor of the value. -/
theorem truncIntAndFloorOfFinite : Obligations.TruncIntAndFloorOfFinite := by
  unfold Obligations.TruncIntAndFloorOfFinite
  refine ⟨fun x hx => truncInt_toNat (f64Is_value hx), fun x hx => ?_⟩
  rw [floorF64_eq (f64Is_value hx)]
  exact ⟨Int.floor_le _, Int.lt_floor_add_one _⟩

/-! ### The fields of returned patterns -/

/-- A magnitude without a sign, in fields: the exponent `E`, and the fraction of `n` scaled to 53 bits without its
leading bit (R79). -/
theorem fields_of_normal {n E : ℕ} (h0 : n ≠ 0) (hn : n < 2 ^ 53) (hE : E < 2048) :
    let x := BitVec.ofNat 64 (E * 2 ^ 52 + (n - 2 ^ n.log2) * 2 ^ (52 - n.log2))
    f64Neg x = false ∧ f64Exp x = E ∧ f64Frac x = (n - 2 ^ n.log2) * 2 ^ (52 - n.log2) := by
  have hlog : n.log2 < 53 := (Nat.log2_lt h0).mpr hn
  have hfrac : (n - 2 ^ n.log2) * 2 ^ (52 - n.log2) < 2 ^ 52 := by
    have hlt : n - 2 ^ n.log2 < 2 ^ n.log2 := by
      have := Nat.lt_log2_self (n := n)
      omega
    calc (n - 2 ^ n.log2) * 2 ^ (52 - n.log2) < 2 ^ n.log2 * 2 ^ (52 - n.log2) :=
          Nat.mul_lt_mul_of_pos_right hlt (by positivity)
      _ = 2 ^ 52 := by rw [← pow_add, Nat.add_sub_cancel' (by omega)]
  generalize (n - 2 ^ n.log2) * 2 ^ (52 - n.log2) = f at hfrac
  have hlt : E * 2 ^ 52 + f < 2 ^ 63 := by omega
  refine ⟨f64Neg_ofNat _ hlt, ?_, ?_⟩
  · rw [f64Exp_ofNat _ hlt]
    omega
  · rw [f64Frac_ofNat]
    omega

theorem twoM53_is : f64Is Config.twoM53 (2 ^ (-53 : ℤ)) := by
  have h : f64Exact Config.twoM53 = some ⟨2 ^ 52, -105⟩ := by decide
  have := f64Is_of_exact h
  norm_num [exactValue] at this ⊢
  exact this

theorem intToF64_is {z : ℤ} (h : z.natAbs < 2 ^ 53) : f64Is (intToF64 z) z := by
  simpa [intToF64] using rn_exact z 0 h (by norm_num) (by norm_num)

/-- `m * 2^-53` as `F53` forms it has the pattern of R79 (b). -/
theorem fmul_twoM53_eq {m : ℕ} (hm : m < 2 ^ 53) : fmul (intToF64 m) Config.twoM53 = fractionBits m := by
  rw [fractionBits_eq_rn m hm]
  exact fmul_eq (intToF64_is (by simpa using hm)) twoM53_is _ (by simp [exactValue])

/-- Settles O49: both products are exact, so they are the patterns of R79, whose fields do not overlap. -/
theorem returnedPatternsHaveDocumentedFields : Obligations.ReturnedPatternsHaveDocumentedFields := by
  unfold Obligations.ReturnedPatternsHaveDocumentedFields
  refine ⟨fun k hk => ?_, hashValue_eq 0#32, fun m h0 hm => ?_⟩
  · have h0 : k.toNat ≠ 0 := by simpa using mt (BitVec.eq_of_toNat_eq (y := 0#32)) hk
    have hlt : k.toNat < 2 ^ 32 := k.isLt
    have hlog : k.toNat.log2 < 32 := (Nat.log2_lt h0).mpr hlt
    rw [hashValue_eq, latticeF64, latticeBits, if_neg h0]
    exact fields_of_normal h0 (by omega) (by omega)
  · have hlog : m.log2 < 53 := (Nat.log2_lt h0.ne').mpr hm
    rw [fmul_twoM53_eq hm, fractionBits, if_neg h0.ne']
    exact fields_of_normal h0.ne' hm (by omega)

/-! ### Rounding of integers to 53 bits -/

/-- From `2^53` on, `RN53` drops all bits but 53 by the rounding of R71. -/
theorem rn53_of_ge {m : ℕ} (h : 2 ^ 53 ≤ m) :
    rn53 m = roundHalfEven m (m.log2 - 52) * 2 ^ (m.log2 - 52) := by
  have hlog : 53 ≤ m.log2 := (Nat.le_log2 (by omega)).mpr h
  obtain ⟨k, hk⟩ : ∃ k, m.log2 = k + 53 := ⟨m.log2 - 53, by omega⟩
  have hpow : 2 ^ (k + 1) = 2 * 2 ^ k := by rw [pow_succ, mul_comm]
  unfold rn53 roundHalfEven
  rw [if_neg (by omega), hk]
  simp only [show k + 53 + 1 - 53 = k + 1 by omega, show k + 53 - 52 = k + 1 by omega, Nat.add_sub_cancel]
  rw [ite_mul]
  congr 1
  apply propext
  omega

/-- Settles O50: below `2^53` nothing is dropped; from there on both round to the same quantum. -/
theorem rn53AgreesWithRn : Obligations.Rn53AgreesWithRn := by
  unfold Obligations.Rn53AgreesWithRn
  intro m j hm hlo hhi
  have hval := rn_value ⟨m, j⟩ (by simpa using hm) (by simpa using hhi)
  have hq : quantumExp m j = (m.log2 : ℤ) + j - 52 := by unfold quantumExp; omega
  have hsign : ((m : ℤ).sign : ℚ) = 1 := by rw [Int.sign_eq_one_of_pos (by omega), Int.cast_one]
  simp only [Int.natAbs_natCast, hq, hsign, one_mul] at hval
  convert hval using 1
  rcases Nat.lt_or_ge m (2 ^ 53) with hlt | hge
  · have hlog : m.log2 < 53 := (Nat.log2_lt hm).mpr hlt
    rw [rn53, if_pos hlt, roundToQuantum, if_pos (by omega)]
    exact_mod_cast (shift_value m j ((m.log2 : ℤ) + j - 52) (by omega)).symm
  · have hlog : 53 ≤ m.log2 := (Nat.le_log2 hm).mpr hge
    have hk : (m.log2 : ℤ) + j - 52 = ((m.log2 - 52 : ℕ) : ℤ) + j := by omega
    rw [rn53_of_ge hge, roundToQuantum, if_neg (by omega), hk, add_sub_cancel_right, Int.toNat_natCast,
      zpow_add₀ two_ne_zero, zpow_natCast]
    push_cast
    ring

/-! ### The constants -/

theorem kMash_is : f64Is Config.kMash (3462916383 / 2 ^ 37) := by
  have h : f64Exact Config.kMash = some ⟨3462916383 * 2 ^ 21, -58⟩ := by decide
  have := f64Is_of_exact h
  norm_num [exactValue] at this ⊢
  exact this

theorem two32_is : f64Is Config.two32 (2 ^ 32) := by
  have h : f64Exact Config.two32 = some ⟨2 ^ 52, -20⟩ := by decide
  have := f64Is_of_exact h
  norm_num [exactValue] at this ⊢
  exact this

theorem two21_is : f64Is Config.two21 (2 ^ 21) := by
  have h : f64Exact Config.two21 = some ⟨2 ^ 52, -31⟩ := by decide
  have := f64Is_of_exact h
  norm_num [exactValue] at this ⊢
  exact this

/-- The printed literal of `K_MASH` lies in `[2^-6, 2^-5)`. -/
theorem intLog_kMash_literal : Int.log 2 (2519603282416938 / 10 ^ 17 : ℚ) = -6 := by
  have hpos : (0 : ℚ) < 2519603282416938 / 10 ^ 17 := by norm_num
  apply le_antisymm
  · rw [← Int.lt_add_one_iff, ← Int.lt_zpow_iff_log_lt (by norm_num) hpos]
    norm_num
  · rw [← Int.zpow_le_iff_le_log (by norm_num) hpos]
    norm_num

theorem kMash_literal_rounds : RoundsTiesToEven (2519603282416938 / 10 ^ 17) Config.kMash := by
  unfold RoundsTiesToEven
  rw [abs_of_pos (by norm_num), intLog_kMash_literal]
  refine ⟨3462916383 * 2 ^ 21, ?_, ?_, ?_⟩
  · convert kMash_is using 1
    norm_num
  · norm_num [abs_le]
  · norm_num [abs_eq]

/-- Settles O46: the fields of each pattern by evaluation; the printed literal is off by less than half a quantum. -/
theorem constantsHaveDocumentedValues : Obligations.ConstantsHaveDocumentedValues := by
  unfold Obligations.ConstantsHaveDocumentedValues
  refine ⟨kMash_is, two32_is, ?_, aMul_is, two21_is, ?_, one_is, kMash_literal_rounds⟩
  · simpa using twoM32_is
  · simpa using twoM53_is

/-! ### A draw on any `s[0]` in `[0, 1)` -/

/-- Rounding a non-negative real does not pass a value the format holds, and keeps the real non-negative. -/
theorem rn_nonneg_le {x : Exact} {m : ℕ} {j : ℤ} (h0 : 0 ≤ exactValue x) (hle : exactValue x ≤ m * 2 ^ j)
    (hlt : exactValue x < 2 ^ (j + 53)) (hj : -1074 ≤ j) (hj' : j ≤ 970) :
    ∃ v, f64Is (rn x) v ∧ 0 ≤ v ∧ v ≤ m * 2 ^ j := by
  rcases h0.eq_or_lt with hz | hpos
  · exact ⟨0, rn_zero x hz.symm ▸ f64Is_zero, le_rfl, by positivity⟩
  have hne : exactValue x ≠ 0 := hpos.ne'
  have habs := abs_exactValue x
  rw [abs_of_pos hpos] at habs
  have hlog : (x.m.natAbs.log2 : ℤ) + x.e < j + 53 := log2_lt_of_abs_lt hne (by rwa [abs_of_pos hpos])
  have hm : 0 < x.m := (exactValue_pos_iff x).mp hpos
  have hval := rn_value x hm.ne' (by omega)
  rw [Int.sign_eq_one_of_pos hm, Int.cast_one, one_mul] at hval
  refine ⟨_, hval, by positivity, ?_⟩
  exact roundToQuantum_le_of_le _ _ _ _ (by unfold quantumExp; omega) (habs ▸ hle)

/-- The exact real of a finite value: 53 significant bits, none below `2^-1074` (R70). -/
theorem f64Exact_bounds {x : F64} {w : Exact} (h : f64Exact x = some w) : w.m.natAbs < 2 ^ 53 ∧ -1074 ≤ w.e := by
  have hfrac : f64Frac x < 2 ^ 52 := (x.extractLsb' 0 52).isLt
  unfold f64Exact f64Signed at h
  split_ifs at h <;> obtain rfl := Option.some.inj h <;> constructor <;> dsimp only <;> omega

theorem exactValue_neg_exponent (m : ℤ) (k : ℕ) : exactValue ⟨m, -k⟩ = (m : ℚ) / ((2 ^ k : ℕ) : ℚ) := by
  rw [exactValue, zpow_neg, zpow_natCast, div_eq_mul_inv]
  push_cast
  rfl

/-- Taking the integer part off a non-negative value is exact: no bit below the value's own last one arises. -/
theorem fsub_floor_is_fract {t c : F64} {v : ℚ} (ht : f64Is t v) (hv : 0 ≤ v) (hc : f64Is c ⌊v⌋) :
    f64Is (fsub t c) (Int.fract v) := by
  obtain ⟨⟨m, e⟩, hw, hval⟩ := exact_of_f64Is ht
  obtain ⟨hm, he⟩ := f64Exact_bounds hw
  dsimp only at hm he
  rcases le_or_gt 0 e with hnn | hneg
  · have hint : v = ((m * 2 ^ (e - 0).toNat : ℤ) : ℚ) := by
      rw [← hval, exactValue, ← shift_value m e 0 hnn, zpow_zero, mul_one]
    have hfract : Int.fract v = 0 := by rw [hint, Int.fract_intCast]
    have hz : exactValue ⟨0, 0⟩ = v - ⌊v⌋ := by
      rw [Int.self_sub_floor, hfract]
      simp [exactValue]
    rw [fsub_eq ht hc _ hz, hfract]
    exact f64Is_zero
  · obtain ⟨k, rfl⟩ : ∃ k : ℕ, e = -k := ⟨(-e).toNat, by omega⟩
    have hm0 : 0 ≤ m := (exactValue_nonneg_iff ⟨m, -k⟩).mp (hval ▸ hv)
    rw [exactValue_neg_exponent] at hval
    have hz : exactValue ⟨m % (2 ^ k : ℕ), -k⟩ = Int.fract v := by
      rw [exactValue_neg_exponent, ← hval, Int.fract_div_intCast_eq_div_intCast_mod]
    rw [fsub_eq ht hc _ (hz.trans (Int.self_sub_floor v).symm), ← hz]
    have hle : m % (2 ^ k : ℕ) ≤ m := by
      lift m to ℕ using hm0
      exact_mod_cast Nat.mod_le m (2 ^ k)
    have hlo : 0 ≤ m % (2 ^ k : ℕ) := Int.emod_nonneg m (by positivity)
    exact rn_exact _ _ (by omega) he (by omega)

/-- The sum `t` of a draw from `s[0]` in `[0, 1)` and any carry, twice rounded, lies in `[0, 2091640)` (R82). -/
theorem drawSum_range {a : F64} {u : ℚ} (ha : f64Is a u) (h0 : 0 ≤ u) (h1 : u < 1) (c : Word) :
    ∃ v, f64Is (fadd (fmul Config.aMul a) (hashValue c)) v ∧ 0 ≤ v ∧ v < 2091640 := by
  obtain ⟨z, hz, hmul⟩ := fmul_eq_rn aMul_is ha
  obtain ⟨p, hp, hp0, hp1⟩ := rn_nonneg_le (x := z) (m := 2091639) (j := 0) (by rw [hz]; positivity)
    (by rw [hz]; push_cast; linarith) (by rw [hz]; norm_num; linarith) (by norm_num) (by norm_num)
  have hc : (c.toNat : ℚ) ≤ 2 ^ 32 - 1 := by
    have : c.toNat + 1 ≤ 2 ^ 32 := c.isLt
    have : ((c.toNat + 1 : ℕ) : ℚ) ≤ 2 ^ 32 := by exact_mod_cast this
    push_cast at this
    linarith
  rw [hmul, hashValue_eq]
  obtain ⟨y, hy, hadd⟩ := fadd_eq_rn hp (latticeF64_is c) (.inr (lattice_ne_negZero c))
  have htop : exactValue y ≤ (2091640 * 2 ^ 32 - 1 : ℕ) * 2 ^ (-32 : ℤ) := by
    rw [hy]
    push_cast at hp1
    norm_num at hp1 ⊢
    linarith
  have hmax : ((2091640 * 2 ^ 32 - 1 : ℕ) : ℚ) * 2 ^ (-32 : ℤ) < 2091640 := by norm_num
  obtain ⟨v, hv, hv0, hv1⟩ := rn_nonneg_le (by rw [hy]; positivity) htop
    (htop.trans_lt (hmax.trans (by norm_num))) (by norm_num) (by norm_num)
  exact ⟨v, hadd ▸ hv, hv0, hv1.trans_lt hmax⟩

theorem drawStep_range {q : Alea} (hf : f64Finite q.s0) (h0 : 0 ≤ f64Value q.s0) (h1 : f64Value q.s0 < 1) :
    (drawStep q).c.toNat ≤ 2091639 ∧ ∃ v, f64Is (drawStep q).s2 v ∧ 0 ≤ v ∧ v < 1 := by
  obtain ⟨v, hv, hv0, hv1⟩ := drawSum_range (f64Is_value hf) h0 h1 q.c
  have hcarry := truncInt_toNat hv hv0 (hv1.trans (by norm_num))
  have hfloor : ⌊v⌋ < 2091640 := Int.floor_lt.mpr (by exact_mod_cast hv1)
  have hcval : f64Is (u32ToF64 (truncInt (fadd (fmul Config.aMul q.s0) (hashValue q.c)))) ⌊v⌋ := by
    rw [← hcarry]
    exact_mod_cast u32ToF64_is _
  refine ⟨?_, Int.fract v, fsub_floor_is_fract hv hv0 hcval, Int.fract_nonneg v, Int.fract_lt_one v⟩
  change (truncInt (fadd (fmul Config.aMul q.s0) (hashValue q.c))).toNat ≤ 2091639
  omega

/-- Settles O29: the sum of a draw is in range, and taking its integer part off is exact. -/
theorem drawRangeOnAnyUnitState : Obligations.DrawRangeOnAnyUnitState := by
  unfold Obligations.DrawRangeOnAnyUnitState
  intro s a b d ha hb hd hf h0 h1
  have hq : s.alea = some ⟨a, b, d, s.c⟩ := (alea_eq_some_iff s _).mpr ⟨ha, hb, hd, rfl⟩
  obtain ⟨hc, v, ⟨hfin, rfl⟩, hv0, hv1⟩ := drawStep_range (q := ⟨a, b, d, s.c⟩) hf h0 h1
  exact ⟨_, _, execDraw_of_alea s _ hq, hc, hfin, hv0, hv1⟩

end Sys2Proof.Machine
end

section
/-!
SUPPORT. Proofs of the statements about the Mash family (spec/41_mash.md R90 to R94). The values of the update of R91
are integers over powers of two: the two rounded products are `mashQ1 * 2^-37` and `mashQ2 * 2^-37` with the integers of
R93, and what follows each of them is exact.
-/

namespace Sys2Proof.Machine

/-! ### Integers over a power of two -/

theorem rn_div_two_pow {m k : ℕ} (hm : m < 2 ^ 53) (hk : k ≤ 1074) :
    f64Is (rn ⟨m, -k⟩) ((m : ℚ) / (2 ^ k : ℕ)) := by
  have h := rn_exact m (-k) (by simpa using hm) (by omega) (by omega)
  change f64Is _ (exactValue ⟨m, -k⟩) at h
  rwa [exactValue_neg_exponent] at h

theorem u32ToF64_ne_negZero (k : Word) : u32ToF64 k ≠ negZero :=
  rn_ne_negZero _ (Int.natCast_nonneg _).eq_or_lt'

/-- The product of a value in `[0, 1]` and a 32-bit integer, when it is not zero, is rounded once (R71). -/
theorem fmul_u32ToF64_rounds {x : F64} {u : ℚ} (hx : f64Is x u) (h0 : 0 ≤ u) (h1 : u ≤ 1) {k : Word}
    (hne : u * k.toNat ≠ 0) : RoundsTiesToEven (u * k.toNat) (fmul x (u32ToF64 k)) := by
  obtain ⟨z, hz, hmul⟩ := fmul_eq_rn hx (u32ToF64_is k)
  have hk : (k.toNat : ℚ) < 2 ^ 32 := by exact_mod_cast k.isLt
  rw [hmul]
  refine rn_rounds hz hne ?_
  calc |u * k.toNat| = u * k.toNat := abs_of_nonneg (by positivity)
    _ ≤ k.toNat := mul_le_of_le_one_left (Nat.cast_nonneg _) h1
    _ < 2 ^ 1023 := hk.trans (pow_lt_pow_right₀ (by norm_num) (by norm_num))

/-- A product `m * 2^-37` of finite values rounds to `RN53(m) * 2^-37` (R81). -/
theorem fmul_eq_rn53 {a b : F64} {u v : ℚ} (ha : f64Is a u) (hb : f64Is b v) {m : ℕ}
    (huv : u * v = (m : ℚ) / (2 ^ 37 : ℕ)) (hm : m < 2 ^ 64) :
    f64Is (fmul a b) ((rn53 m : ℚ) / (2 ^ 37 : ℕ)) := by
  have hz : exactValue ⟨m, -(37 : ℕ)⟩ = u * v := by rw [exactValue_neg_exponent, huv, Int.cast_natCast]
  rw [fmul_eq ha hb _ hz]
  rcases Nat.eq_zero_or_pos m with rfl | hpos
  · exact rn_div_two_pow (by norm_num) (by norm_num)
  · have hlog : m.log2 < 64 := (Nat.log2_lt hpos.ne').mpr hm
    have h := rn53AgreesWithRn m (-(37 : ℕ)) hpos.ne' (by omega) (by omega)
    rwa [zpow_neg, zpow_natCast, ← div_eq_mul_inv, ← Nat.cast_ofNat (n := 2), ← Nat.cast_pow] at h

/-- `RN53` does not pass a number of at most 53 significant bits. -/
theorem rn53_le {m b k : ℕ} (hm : m ≤ b * 2 ^ k) (hb : b < 2 ^ 53) (hk : k ≤ 64) : rn53 m ≤ b * 2 ^ k := by
  rcases Nat.eq_zero_or_pos m with rfl | hpos
  · exact Nat.zero_le _
  have hlt : m < 2 ^ (k + 53) := by
    calc m ≤ b * 2 ^ k := hm
      _ < 2 ^ 53 * 2 ^ k := Nat.mul_lt_mul_of_pos_right hb (by positivity)
      _ = 2 ^ (k + 53) := by rw [← pow_add, add_comm]
  have hlog : m.log2 < k + 53 := (Nat.log2_lt hpos.ne').mpr hlt
  have hval : exactValue ⟨m, 0⟩ = (m : ℚ) := by simp [exactValue]
  obtain ⟨v, hv, -, hle⟩ := rn_nonneg_le (x := ⟨m, 0⟩) (m := b) (j := k) (by rw [hval]; positivity)
    (by rw [hval]; exact_mod_cast hm) (by rw [hval]; exact_mod_cast hlt) (by omega) (by omega)
  have hrn := rn53AgreesWithRn m 0 hpos.ne' (by omega) (by omega)
  rw [← hv.2, hrn.2, zpow_zero, mul_one] at hle
  exact_mod_cast hle

/-- Below `2^32` truncation takes the floor and does not wrap (R76). -/
theorem truncU32_toNat {x : F64} {v : ℚ} (h : f64Is x v) (hv : 0 ≤ v) (hlt : v < 2 ^ 32) :
    ((truncU32 x).toNat : ℤ) = ⌊v⌋ := by
  have hhi : ⌊v⌋ < 2 ^ 32 := Int.floor_lt.mpr (by exact_mod_cast hlt)
  rw [truncU32_eq h hv, toNat_ofInt_word, Int.emod_eq_of_lt (Int.floor_nonneg.mpr hv) hhi]

/-- Taking the truncated value off leaves exactly the fractional part. -/
theorem fsub_truncU32_is_fract {x : F64} {v : ℚ} (h : f64Is x v) (hv : 0 ≤ v) (hlt : v < 2 ^ 32) :
    f64Is (fsub x (u32ToF64 (truncU32 x))) (Int.fract v) := by
  refine fsub_floor_is_fract h hv ?_
  rw [← truncU32_toNat h hv hlt]
  exact_mod_cast u32ToF64_is _

/-- Steps 3 and 4, and steps 6 and 7, of R91 on `m * 2^-37`: quotient and remainder by `2^37`. -/
theorem truncU32_fsub_of_quotient {x : F64} {m : ℕ} (h : f64Is x ((m : ℚ) / (2 ^ 37 : ℕ))) (hm : m < 2 ^ 69) :
    (truncU32 x).toNat = m / 2 ^ 37 ∧
      f64Is (fsub x (u32ToF64 (truncU32 x))) (((m % 2 ^ 37 : ℕ) : ℚ) / (2 ^ 37 : ℕ)) := by
  have hlt : (m : ℚ) / (2 ^ 37 : ℕ) < 2 ^ 32 := by
    rw [div_lt_iff₀ (by positivity)]
    exact_mod_cast hm
  have hfloor := truncU32_toNat h (by positivity) hlt
  have hfract := fsub_truncU32_is_fract h (by positivity) hlt
  rw [Rat.floor_natCast_div_natCast] at hfloor
  rw [Int.fract_div_natCast_eq_div_natCast_mod] at hfract
  exact ⟨by exact_mod_cast hfloor, hfract⟩

/-! ### The update on integers -/

/-- `Q1` of R93: the first product, rounded, in units of `2^-37`. -/
def mashQ1 (n : Word) (chr : ChrCode) : ℕ := rn53 (3462916383 * ((n.toNat + chr.toNat) % 2 ^ 32))

/-- `Q2` of R93: the second product, rounded, in units of `2^-37`. -/
def mashQ2 (n : Word) (chr : ChrCode) : ℕ := rn53 (mashQ1 n chr % 2 ^ 37 * (mashQ1 n chr / 2 ^ 37))

theorem mashInt_eq (n : Word) (chr : ChrCode) :
    mashInt n chr = BitVec.ofNat 32 ((mashQ2 n chr / 2 ^ 37 + mashQ2 n chr % 2 ^ 37 / 32) % 2 ^ 32) := rfl

theorem mashQ1_le (n : Word) (chr : ChrCode) : mashQ1 n chr ≤ 3462916383 * 2 ^ 32 :=
  rn53_le (by omega) (by norm_num) (by norm_num)

theorem mashQ2_le (n : Word) (chr : ChrCode) : mashQ2 n chr ≤ mashQ1 n chr / 2 ^ 37 * 2 ^ 37 := by
  have hq := mashQ1_le n chr
  refine rn53_le ?_ (by omega) (by norm_num)
  rw [mul_comm]
  exact Nat.mul_le_mul_left _ (Nat.mod_lt _ (by positivity)).le

/-- R91, corner case (b). -/
theorem mashInt_of_sum_lt_40 {n : Word} {chr : ChrCode} (h : (n.toNat + chr.toNat) % 2 ^ 32 < 40) :
    mashInt n chr = 0#32 := by
  have hquot : mashQ1 n chr / 2 ^ 37 = 0 := by
    unfold mashQ1 rn53
    rw [if_pos (by omega)]
    omega
  have hq2 : mashQ2 n chr = 0 := by
    rw [mashQ2, hquot, mul_zero]
    rfl
  rw [mashInt_eq, hq2]
  rfl

/-! ### The update in binary64 -/

theorem mashSteps_a (n : Word) (chr : ChrCode) : (mashSteps n chr).a = n + chrOperand chr := rfl

theorem mashSteps_n (n : Word) (chr : ChrCode) : (mashSteps n chr).n = truncU32 (mashSteps n chr).sum := rfl

theorem mashSteps_a_toNat (n : Word) (chr : ChrCode) :
    (mashSteps n chr).a.toNat = (n.toNat + chr.toNat) % 2 ^ 32 := by
  have := chr.isLt
  rw [mashSteps_a, BitVec.toNat_add, chrOperand, BitVec.toNat_setWidth, Nat.mod_eq_of_lt (a := chr.toNat) (by omega)]

theorem mashSteps_h1_is (n : Word) (chr : ChrCode) :
    f64Is (mashSteps n chr).h1 ((mashQ1 n chr : ℚ) / (2 ^ 37 : ℕ)) := by
  refine fmul_eq_rn53 kMash_is (u32ToF64_is (mashSteps n chr).a) ?_ (by omega)
  rw [mashSteps_a_toNat]
  push_cast
  ring

theorem mashSteps_n1_f1 (n : Word) (chr : ChrCode) :
    (mashSteps n chr).n1.toNat = mashQ1 n chr / 2 ^ 37 ∧
      f64Is (mashSteps n chr).f1 (((mashQ1 n chr % 2 ^ 37 : ℕ) : ℚ) / (2 ^ 37 : ℕ)) :=
  truncU32_fsub_of_quotient (mashSteps_h1_is n chr) (by have := mashQ1_le n chr; omega)

theorem mashSteps_p_is (n : Word) (chr : ChrCode) :
    f64Is (mashSteps n chr).p ((mashQ2 n chr : ℚ) / (2 ^ 37 : ℕ)) := by
  obtain ⟨hn1, hf1⟩ := mashSteps_n1_f1 n chr
  refine fmul_eq_rn53 hf1 (u32ToF64_is (mashSteps n chr).n1) ?_ ?_
  · rw [hn1, Nat.cast_mul]
    ring
  · have hq := mashQ1_le n chr
    calc mashQ1 n chr % 2 ^ 37 * (mashQ1 n chr / 2 ^ 37) < 2 ^ 37 * 2 ^ 27 :=
          Nat.mul_lt_mul'' (Nat.mod_lt _ (by positivity)) (by omega)
      _ = 2 ^ 64 := by norm_num

theorem mashSteps_n2_f2 (n : Word) (chr : ChrCode) :
    (mashSteps n chr).n2.toNat = mashQ2 n chr / 2 ^ 37 ∧
      f64Is (mashSteps n chr).f2 (((mashQ2 n chr % 2 ^ 37 : ℕ) : ℚ) / (2 ^ 37 : ℕ)) :=
  truncU32_fsub_of_quotient (mashSteps_p_is n chr)
    (by have := mashQ1_le n chr; have := mashQ2_le n chr; omega)

theorem mashSteps_x_is (n : Word) (chr : ChrCode) :
    f64Is (mashSteps n chr).x (((mashQ2 n chr % 2 ^ 37 : ℕ) : ℚ) / (2 ^ 5 : ℕ)) := by
  have hx : (mashSteps n chr).x = rn ⟨(mashQ2 n chr % 2 ^ 37 : ℕ), -(5 : ℕ)⟩ := by
    refine fmul_eq (mashSteps_n2_f2 n chr).2 two32_is _ ?_
    rw [exactValue_neg_exponent, Int.cast_natCast]
    push_cast
    ring
  rw [hx]
  exact rn_div_two_pow (by omega) (by norm_num)

theorem mashSteps_sum_is (n : Word) (chr : ChrCode) :
    f64Is (mashSteps n chr).sum
      (((32 * (mashQ2 n chr / 2 ^ 37) + mashQ2 n chr % 2 ^ 37 : ℕ) : ℚ) / (2 ^ 5 : ℕ)) := by
  have hsum : (mashSteps n chr).sum =
      rn ⟨(32 * (mashQ2 n chr / 2 ^ 37) + mashQ2 n chr % 2 ^ 37 : ℕ), -(5 : ℕ)⟩ := by
    refine fadd_eq (u32ToF64_is (mashSteps n chr).n2) (mashSteps_x_is n chr) (.inl (u32ToF64_ne_negZero _)) _ ?_
    rw [exactValue_neg_exponent, Int.cast_natCast, (mashSteps_n2_f2 n chr).1]
    push_cast
    ring
  have hq1 := mashQ1_le n chr
  have hq2 := mashQ2_le n chr
  rw [hsum]
  exact rn_div_two_pow (by omega) (by norm_num)

theorem mashSteps_n_toNat (n : Word) (chr : ChrCode) :
    ((mashSteps n chr).n.toNat : ℤ) = ⌊f64Value (mashSteps n chr).sum⌋ % 2 ^ 32 := by
  have hsum := mashSteps_sum_is n chr
  rw [mashSteps_n, truncU32_eq hsum (by positivity), toNat_ofInt_word, hsum.2]

/-- The update of R91 is the computation on integers of R93. -/
theorem mashSteps_n_eq_mashInt (n : Word) (chr : ChrCode) : (mashSteps n chr).n = mashInt n chr := by
  apply BitVec.eq_of_toNat_eq
  rw [← Int.natCast_inj, mashSteps_n_toNat, (mashSteps_sum_is n chr).2, Rat.floor_natCast_div_natCast, mashInt_eq,
    BitVec.toNat_ofNat]
  omega

/-- What `MABS` answers, on integers. -/
theorem exec_mabs (s : State) (chr : ChrCode) :
    exec (.mabs chr) s = .next { s with n := mashInt s.n chr, responses := s.responses ++ [⟨.ok, 0#64⟩] } := by
  rw [← mashSteps_n_eq_mashInt]
  rfl

/-- Settles O14: both roundings are `RN53` in units of `2^-37`, and everything else is exact. -/
theorem mabsEqualsIntegerUpdate : Obligations.MabsEqualsIntegerUpdate := by
  unfold Obligations.MabsEqualsIntegerUpdate
  exact exec_mabs

/-- Settles O16: the first product is below 1, so the second one is 0. -/
theorem mabsSmallSumGivesZero : Obligations.MabsSmallSumGivesZero := by
  unfold Obligations.MabsSmallSumGivesZero
  intro s chr h
  rw [exec_mabs, mashInt_of_sum_lt_40 h]

/-! ### The intermediate values -/

/-- What steps 3 and 4, and steps 6 and 7, of R91 make of any value in `[0, 2^32)`. -/
theorem truncU32_fsub_range {x : F64} {v : ℚ} (h : f64Is x v) (hv : 0 ≤ v) (hlt : v < 2 ^ 32) :
    ((truncU32 x).toNat : ℤ) = ⌊f64Value x⌋ ∧
      f64Is (fsub x (u32ToF64 (truncU32 x))) (f64Value x - (truncU32 x).toNat) ∧
      0 ≤ f64Value (fsub x (u32ToF64 (truncU32 x))) ∧ f64Value (fsub x (u32ToF64 (truncU32 x))) < 1 := by
  have hfloor := truncU32_toNat h hv hlt
  have hfract := fsub_truncU32_is_fract h hv hlt
  have hcast : ((truncU32 x).toNat : ℚ) = ⌊v⌋ := by exact_mod_cast congrArg (Int.cast (R := ℚ)) hfloor
  rw [h.2, hfract.2, hcast, Int.self_sub_floor]
  exact ⟨hfloor, hfract, Int.fract_nonneg v, Int.fract_lt_one v⟩

theorem mashSteps_h1_range (n : Word) (chr : ChrCode) :
    0 ≤ f64Value (mashSteps n chr).h1 ∧ f64Value (mashSteps n chr).h1 < 108216137 := by
  rw [(mashSteps_h1_is n chr).2]
  refine ⟨by positivity, ?_⟩
  rw [div_lt_iff₀ (by positivity)]
  have := mashQ1_le n chr
  exact_mod_cast (by omega : mashQ1 n chr < 108216137 * 2 ^ 37)

theorem mashSteps_p_range (n : Word) (chr : ChrCode) :
    0 ≤ f64Value (mashSteps n chr).p ∧ f64Value (mashSteps n chr).p < 2 ^ 27 := by
  rw [(mashSteps_p_is n chr).2]
  refine ⟨by positivity, ?_⟩
  rw [div_lt_iff₀ (by positivity)]
  have hq1 := mashQ1_le n chr
  have hq2 := mashQ2_le n chr
  exact_mod_cast (by omega : mashQ2 n chr < 2 ^ 27 * 2 ^ 37)

theorem mashSteps_sum_lt (n : Word) (chr : ChrCode) : f64Value (mashSteps n chr).sum < 2 ^ 32 + 2 ^ 27 := by
  rw [(mashSteps_sum_is n chr).2, div_lt_iff₀ (by positivity)]
  have hq1 := mashQ1_le n chr
  have hq2 := mashQ2_le n chr
  exact_mod_cast (by omega :
    32 * (mashQ2 n chr / 2 ^ 37) + mashQ2 n chr % 2 ^ 37 < (2 ^ 32 + 2 ^ 27) * 2 ^ 5)

theorem mashSteps_h1_rounds {n : Word} {chr : ChrCode} (ha : (mashSteps n chr).a ≠ 0#32) :
    RoundsTiesToEven (f64Value Config.kMash * (mashSteps n chr).a.toNat) (mashSteps n chr).h1 := by
  have ha0 : (mashSteps n chr).a.toNat ≠ 0 := by simpa using mt (BitVec.eq_of_toNat_eq (y := 0#32)) ha
  rw [kMash_is.2]
  exact fmul_u32ToF64_rounds kMash_is (by norm_num) (by norm_num) (by positivity)

theorem mashSteps_x_is_scaled (n : Word) (chr : ChrCode) :
    f64Is (mashSteps n chr).x (f64Value (mashSteps n chr).f2 * 2 ^ 32) := by
  convert mashSteps_x_is n chr using 1
  rw [(mashSteps_n2_f2 n chr).2.2]
  push_cast
  ring

theorem mashSteps_sum_is_sum (n : Word) (chr : ChrCode) :
    f64Is (mashSteps n chr).sum ((mashSteps n chr).n2.toNat + f64Value (mashSteps n chr).x) := by
  convert mashSteps_sum_is n chr using 1
  rw [(mashSteps_n2_f2 n chr).1, (mashSteps_x_is n chr).2]
  push_cast
  ring

/-- Settles O15: the two products round once, the two differences are fractional parts, and the last product and the
sum are the quotients by `2^5` they should be. -/
theorem mabsIntermediateValues : Obligations.MabsIntermediateValues := by
  unfold Obligations.MabsIntermediateValues
  intro n chr
  have hh1 := f64Is_value (mashSteps_h1_is n chr).1
  have hp := f64Is_value (mashSteps_p_is n chr).1
  obtain ⟨hh1lo, hh1hi⟩ := mashSteps_h1_range n chr
  obtain ⟨hplo, hphi⟩ := mashSteps_p_range n chr
  obtain ⟨hn1, hf1, hf1lo, hf1hi⟩ := truncU32_fsub_range hh1 hh1lo (hh1hi.trans (by norm_num))
  obtain ⟨hn2, hf2, hf2lo, hf2hi⟩ := truncU32_fsub_range hp hplo (hphi.trans (by norm_num))
  exact ⟨mashSteps_a_toNat n chr, mashSteps_h1_rounds, hh1.1, hh1lo, hh1hi, hn1, hf1, hf1lo, hf1hi,
    fmul_u32ToF64_rounds (f64Is_value hf1.1) hf1lo hf1hi.le, hp.1, hplo, hphi, hn2, hf2, hf2lo, hf2hi,
    mashSteps_x_is_scaled n chr, mashSteps_sum_is_sum n chr, mashSteps_sum_lt n chr, mashSteps_n_toNat n chr⟩

/-! ### `MINIT` and `MOUT` -/

/-- A word whose opcode has format N runs as its command, or fails on a set operand bit (R54, R123). -/
theorem step_issue_formatN {cmd : Word} {i : Instr} (hdec : decode cmd = formatN i (argField cmd)) (s : State) :
    step (s.issue cmd) =
      if cmd.extractLsb' 0 24 = 0#24 then exec i s else .next (s.fail .reservedField) := by
  by_cases harg : cmd.extractLsb' 0 24 = 0#24
  · rw [if_pos harg]
    exact step_command_of_decode_ok (s := s.issue cmd) rfl (hdec.trans (if_pos harg))
  · rw [if_neg harg]
    exact step_command_of_decode_error (s := s.issue cmd) rfl (hdec.trans (if_neg harg))

theorem decode_of_opcode_minit {cmd : Word} (h : opcField cmd = 0x10#8) :
    decode cmd = formatN .minit (argField cmd) := by
  simp [decode, h]

theorem decode_of_opcode_mout {cmd : Word} (h : opcField cmd = 0x12#8) :
    decode cmd = formatN .mout (argField cmd) := by
  simp [decode, h]

/-- Settles O13: the meaning is one write of `n`; the word is of format N. -/
theorem minitInitialisesAccumulator : Obligations.MinitInitialisesAccumulator := by
  unfold Obligations.MinitInitialisesAccumulator
  exact ⟨fun _ => rfl, fun s _ h => step_issue_formatN (decode_of_opcode_minit h) s⟩

/-- Settles O17: the hash value is the lattice value of `n`; the word is of format N. -/
theorem moutReturnsScaledAccumulator : Obligations.MoutReturnsScaledAccumulator := by
  unfold Obligations.MoutReturnsScaledAccumulator
  refine ⟨fun s => ⟨hashValue s.n, rfl, hashValue_eq s.n, ?_, ?_⟩,
    fun s _ h => step_issue_formatN (decode_of_opcode_mout h) s⟩
  · rw [hashValue_eq]
    convert latticeF64_is s.n using 1
    rw [zpow_neg, ← div_eq_mul_inv]
    norm_cast
  · rw [hashValue_eq]
    exact f64Value_latticeF64_lt_one s.n

/-! ### Absorbing a text -/

theorem run_succ_of_step {M : Host.Core} {s t : M.State} (h : M.step s = .next t) (k : ℕ) :
    M.run (k + 1) s = M.run k t := by
  simp only [Host.Core.run, h]

/-- A run whose first input is the word of a legal command starts with that command. -/
theorem run_succ_encode {s t : State} {i : Instr} {rest : List HostInput} (hwf : i.wellFormed = true)
    (hin : s.inputs = .command (encode i) :: rest) (hexec : exec i { s with inputs := rest } = .next t) (k : ℕ) :
    core.run (k + 1) s = core.run k t :=
  run_succ_of_step (M := core) ((step_command_of_decode_ok hin (decodeOfEncode i hwf)).trans hexec) k

/-- Settles O18, by induction on the codes: the first one updates `n` and the rest absorb from there. -/
theorem absorbingComposesLeftToRight : Obligations.AbsorbingComposesLeftToRight := by
  unfold Obligations.AbsorbingComposesLeftToRight
  intro s codes
  induction codes generalizing s with
  | nil => simp [commandInputs, pseudoAbsorb, Host.Core.run]
  | cons chr codes ih =>
    rw [List.length_cons, run_succ_encode (i := .mabs chr) rfl rfl (exec_mabs _ chr)]
    refine (ih { s with n := mashInt s.n chr, responses := s.responses ++ [⟨.ok, 0#64⟩] }).trans ?_
    rw [List.foldl_cons, List.replicate_succ, List.append_assoc, List.singleton_append]

end Sys2Proof.Machine
end

section
/-!
SUPPORT. Proofs of the statements about the Alea seeding family (spec/42_alea_seed.md R100 to R104). On lattice words the
two commands are integer arithmetic; on any other finite word a non-zero difference never rounds to zero, so that the
test of `AFOLD` sees the sign of the exact difference. `SEED` is put together from the commands by `Completes`.
-/

namespace Sys2Proof.Machine

/-! ### `APRIME`, `AFOLD` and `ACINIT` -/

/-- A word whose opcode has format I runs as its command, or fails on a set reserved bit or the index 3 (R54, R60,
R123). -/
theorem step_issue_formatI {cmd : Word} {mk : WordIdx → Instr} (hdec : decode cmd = formatI mk (argField cmd))
    (s : State) :
    step (s.issue cmd) =
      if cmd.extractLsb' 2 22 = 0#22 ∧ cmd.extractLsb' 0 2 ≠ 3#2 then exec (mk (cmd.extractLsb' 0 2)) s
      else .next (s.fail .reservedField) := by
  have hreserved : (argField cmd).extractLsb' 2 22 = cmd.extractLsb' 2 22 := by
    rw [argField, BitVec.extractLsb'_extractLsb'_of_le (by norm_num)]
  have hidx : (argField cmd).extractLsb' 0 2 = cmd.extractLsb' 0 2 := by
    rw [argField, BitVec.extractLsb'_extractLsb'_of_le (by norm_num)]
  simp only [formatI, hreserved, hidx, legalIdx, bne_iff_ne] at hdec
  split_ifs with hlegal
  · exact step_command_of_decode_ok (s := s.issue cmd) rfl (hdec.trans (if_pos hlegal))
  · exact step_command_of_decode_error (s := s.issue cmd) rfl (hdec.trans (if_neg hlegal))

theorem decode_of_opcode_aprime {cmd : Word} (h : opcField cmd = 0x20#8) :
    decode cmd = formatI .aprime (argField cmd) := by
  simp [decode, h]

theorem decode_of_opcode_afold {cmd : Word} (h : opcField cmd = 0x21#8) :
    decode cmd = formatI .afold (argField cmd) := by
  simp [decode, h]

theorem decode_of_opcode_acinit {cmd : Word} (h : opcField cmd = 0x22#8) :
    decode cmd = formatN .acinit (argField cmd) := by
  simp [decode, h]

/-- What `APRIME` answers, on integers (R103). -/
theorem exec_aprime (s : State) {idx : WordIdx} (h : idx ≠ 3#2) :
    exec (.aprime idx) s = .next ((s.setWord idx (latticeF64 s.n)).succeed 0#64) := by
  rw [← hashValue_eq]
  exact execAprime_legal s idx h

/-- What `AFOLD` answers on a lattice word, on integers (R103). -/
theorem exec_afold_lattice {s : State} {idx : WordIdx} {k : Word} (h : s.word idx = some (.written (latticeF64 k))) :
    exec (.afold idx) s = .next ((s.setWord idx (latticeF64 (k - s.n))).succeed 0#64) := by
  rw [← foldValue_lattice]
  exact execAfold_of_written s idx _ h

/-- Settles O19: the hash value is the lattice value of `n`; the word is of format I. -/
theorem aprimeLoadsHashValue : Obligations.AprimeLoadsHashValue := by
  unfold Obligations.AprimeLoadsHashValue
  exact ⟨fun s => exec_aprime s (by decide), fun s => exec_aprime s (by decide), fun s => exec_aprime s (by decide),
    fun _ => rfl, fun s _ h => step_issue_formatI (decode_of_opcode_aprime h) s⟩

/-- The wrapped difference of two words is the non-negative remainder of the difference of the integers. -/
theorem toNat_sub_word (k n : Word) : (((k.toNat : ℤ) - n.toNat) % 2 ^ 32).toNat = (k - n).toNat := by
  bv_omega

/-- Settles O20: the hash value is the lattice value of `n`, and folding subtracts modulo `2^32`. -/
theorem seedingEqualsIntegerArithmetic : Obligations.SeedingEqualsIntegerArithmetic := by
  unfold Obligations.SeedingEqualsIntegerArithmetic
  refine ⟨fun s _ h => exec_aprime s h, fun s idx k h => ?_⟩
  rw [toNat_sub_word]
  exact exec_afold_lattice h

/-- Settles O22: the three errors of the meaning; the word is of format I. -/
theorem afoldErrors : Obligations.AfoldErrors := by
  unfold Obligations.AfoldErrors
  exact ⟨execAfold_of_unwritten, fun _ => rfl, fun s _ h => step_issue_formatI (decode_of_opcode_afold h) s⟩

/-- Settles O23: the meaning is one write of `c`; the word is of format N. -/
theorem acinitInitialisesCarry : Obligations.AcinitInitialisesCarry := by
  unfold Obligations.AcinitInitialisesCarry
  exact ⟨fun _ => rfl, fun s _ h => step_issue_formatN (decode_of_opcode_acinit h) s⟩

/-! ### The carry -/

theorem setWord_setC_succeed (s : State) (idx : WordIdx) (x d : F64) (c : Word) :
    ((s.setC c).succeed d).setWord idx x = ((s.setWord idx x).setC c).succeed d := by
  unfold State.setWord
  split_ifs <;> rfl

/-- `APRIME` and `AFOLD` read `n` and the named word only (R25): where two states agree on these, the command fails in
both with one status or writes one value in both. -/
theorem exec_seeding_congr {i : Instr} {idx : WordIdx} (hi : i = .aprime idx ∨ i = .afold idx) {s t : State}
    (hn : t.n = s.n) (hword : t.word idx = s.word idx) :
    (∃ st, exec i s = .next (s.fail st) ∧ exec i t = .next (t.fail st)) ∨
    (∃ x, exec i s = .next ((s.setWord idx x).succeed 0#64) ∧ exec i t = .next ((t.setWord idx x).succeed 0#64)) := by
  rcases hi with rfl | rfl
  · simp only [exec, execAprime, hn, hword]
    cases s.word idx with
    | none => exact .inl ⟨_, rfl, rfl⟩
    | some _ => exact .inr ⟨_, rfl, rfl⟩
  · simp only [exec, execAfold, hn, hword]
    rcases s.word idx with _ | _ | x
    · exact .inl ⟨_, rfl, rfl⟩
    · exact .inl ⟨_, rfl, rfl⟩
    · exact .inr ⟨_, rfl, rfl⟩

/-- Settles O36: `ACINIT` changes neither `n` nor a word, and the seeding command keeps the carry. -/
theorem seedingIgnoresCarry : Obligations.SeedingIgnoresCarry := by
  unfold Obligations.SeedingIgnoresCarry
  rintro s t u i ⟨idx, hi⟩ ht hu
  obtain rfl := Host.Outcome.next.inj hu
  refine ⟨_, rfl, ?_⟩
  rcases exec_seeding_congr hi (s := s) (t := (s.setC Config.cInit).succeed 0#64) rfl rfl with
    ⟨st, hs, hs'⟩ | ⟨x, hs, hs'⟩
  · obtain rfl := Host.Outcome.next.inj (ht.symm.trans hs)
    exact ⟨_, hs', rfl, rfl, rfl, rfl, rfl⟩
  · obtain rfl := Host.Outcome.next.inj (ht.symm.trans hs)
    refine ⟨_, hs', ?_⟩
    rw [setWord_setC_succeed]
    exact ⟨rfl, rfl, rfl, rfl, rfl⟩

/-! ### `AFOLD` on any written word -/

/-- Values of the format are multiples of `2^-1074` (R70), and so are their differences. -/
theorem le_abs_sub_of_ne {a b : F64} {u v : ℚ} (ha : f64Is a u) (hb : f64Is b v) (hne : u - v ≠ 0) :
    2 ^ (-1074 : ℤ) ≤ |u - v| := by
  obtain ⟨x, hx, rfl⟩ := exact_of_f64Is ha
  obtain ⟨y, hy, rfl⟩ := exact_of_f64Is hb
  obtain ⟨-, hxe⟩ := f64Exact_bounds hx
  obtain ⟨-, hye⟩ := f64Exact_bounds hy
  have hz : exactValue x - exactValue y = exactValue (exactAdd x (exactNeg y)) := by
    rw [exactValue_add, exactValue_neg, sub_eq_add_neg]
  rw [hz] at hne ⊢
  have he : -1074 ≤ (exactAdd x (exactNeg y)).e := le_min hxe hye
  rw [abs_exactValue]
  have hm : (1 : ℚ) ≤ (exactAdd x (exactNeg y)).m.natAbs := by
    exact_mod_cast Nat.one_le_iff_ne_zero.mpr (natAbs_ne_zero_of_exactValue hne)
  calc (2 : ℚ) ^ (-1074 : ℤ) ≤ 2 ^ (exactAdd x (exactNeg y)).e := zpow_le_zpow_right₀ (by norm_num) he
    _ ≤ _ := le_mul_of_one_le_left (by positivity) hm

/-- The quantum of R71 is no larger than a real of at least `2^-1074`, so rounding moves the real by at most half of
itself. -/
theorem abs_sub_le_of_rounds {v : ℚ} {x : F64} (h : RoundsTiesToEven v x) (hv : 2 ^ (-1074 : ℤ) ≤ |v|) :
    f64Finite x ∧ 2 * |v - f64Value x| ≤ |v| := by
  obtain ⟨mult, ⟨hfin, hval⟩, hnear, -⟩ := h
  have hpos : 0 < |v| := lt_of_lt_of_le (by positivity) hv
  refine ⟨hfin, hval ▸ hnear.trans ?_⟩
  rcases le_total (-1022) (Int.log 2 |v|) with hlog | hlog
  · rw [max_eq_left hlog]
    calc (2 : ℚ) ^ (Int.log 2 |v| - 52) ≤ 2 ^ Int.log 2 |v| := zpow_le_zpow_right₀ (by norm_num) (by omega)
      _ ≤ |v| := by exact_mod_cast Int.zpow_log_le_self (b := 2) (by norm_num) hpos
  · rw [max_eq_right hlog]
    exact hv

/-- A value off a real `v` by at most half of it has the sign of `v`. -/
theorem lt_zero_iff_of_abs_sub_le {v d : ℚ} (hv : v ≠ 0) (h : 2 * |v - d| ≤ |v|) : d < 0 ↔ v < 0 := by
  obtain ⟨hlo, hhi⟩ := abs_le.mp (by linarith : |v - d| ≤ |v| / 2)
  rcases lt_or_gt_of_ne hv with hneg | hpos
  · rw [abs_of_neg hneg] at hlo
    exact iff_of_true (by linarith) hneg
  · rw [abs_of_pos hpos] at hhi
    exact iff_of_false (by linarith) hpos.not_gt

theorem hashValue_is (n : Word) : f64Is (hashValue n) (n.toNat / 2 ^ 32) := by
  rw [hashValue_eq]
  convert latticeF64_is n using 1
  rw [zpow_neg, ← div_eq_mul_inv]
  norm_cast

theorem scaled_range (n : Word) : 0 ≤ (n.toNat : ℚ) / 2 ^ 32 ∧ (n.toNat : ℚ) / 2 ^ 32 ≤ 1 := by
  rw [← (hashValue_is n).2, hashValue_eq]
  exact ⟨f64Value_latticeF64_nonneg n, (f64Value_latticeF64_lt_one n).le⟩

/-- The difference of `AFOLD`, when it is not zero: rounded once, of the exact difference's sign, and finite (R101). -/
theorem fsub_hashValue {x : F64} {n : Word} {v : ℚ} (hx : f64Finite x) (hv : f64Value x - n.toNat / 2 ^ 32 = v)
    (hne : v ≠ 0) (hlt : |v| < 2 ^ 1023) :
    RoundsTiesToEven v (fsub x (hashValue n)) ∧ f64Finite (fsub x (hashValue n)) ∧
      2 * |v - f64Value (fsub x (hashValue n))| ≤ |v| ∧ ltZero (fsub x (hashValue n)) = decide (v < 0) := by
  subst hv
  obtain ⟨z, hz, hrn⟩ := fsub_eq_rn (f64Is_value hx) (hashValue_is n)
  have hround := hrn ▸ rn_rounds hz hne hlt
  obtain ⟨hfin, hnear⟩ := abs_sub_le_of_rounds hround (le_abs_sub_of_ne (f64Is_value hx) (hashValue_is n) hne)
  refine ⟨hround, hfin, hnear, ?_⟩
  rw [ltZero_eq (f64Is_value hfin), decide_eq_decide, lt_zero_iff_of_abs_sub_le hne hnear]

theorem foldValue_of_not_ltZero {x : F64} {n : Word} (h : ltZero (fsub x (hashValue n)) = false) :
    foldValue x n = fsub x (hashValue n) := by
  simp [foldValue, h]

theorem foldValue_of_ltZero {x : F64} {n : Word} (h : ltZero (fsub x (hashValue n)) = true) :
    foldValue x n = fadd (fsub x (hashValue n)) Config.one := by
  simp [foldValue, h]

theorem foldValue_of_eq {x : F64} {n : Word} (hx : f64Finite x) (h : f64Value x = n.toNat / 2 ^ 32) :
    foldValue x n = 0#64 := by
  obtain ⟨z, hz, hrn⟩ := fsub_eq_rn (f64Is_value hx) (hashValue_is n)
  have hzero : fsub x (hashValue n) = 0#64 := hrn.trans (rn_of_eq_zero hz (sub_eq_zero.mpr h))
  rw [foldValue_of_not_ltZero (by rw [hzero]; decide), hzero]

/-- 1.0 added to a finite value (R72, R101). -/
theorem fadd_one {d : F64} (hd : f64Finite d) :
    (f64Value d + 1 = 0 → fadd d Config.one = 0#64) ∧
      (f64Value d + 1 ≠ 0 → |f64Value d + 1| < 2 ^ 1023 → RoundsTiesToEven (f64Value d + 1) (fadd d Config.one)) := by
  obtain ⟨z, hz, hrn⟩ := fadd_eq_rn (f64Is_value hd) one_is (.inr (by decide))
  rw [hrn]
  exact ⟨rn_of_eq_zero hz, rn_rounds hz⟩

/-- Below `2^1000` neither the difference of `AFOLD` nor the sum with 1.0 comes near overflow. -/
theorem fold_bounds {x h d : ℚ} (hx : |x| < 2 ^ 1000) (h0 : 0 ≤ h) (h1 : h ≤ 1) :
    |x - h| < 2 ^ 1023 ∧ (2 * |x - h - d| ≤ |x - h| → |d + 1| < 2 ^ 1023) := by
  have hpow : (2 : ℚ) ^ 1023 = 2 ^ 23 * 2 ^ 1000 := by rw [← pow_add]
  have hone : (1 : ℚ) ≤ 2 ^ 1000 := one_le_pow₀ (by norm_num)
  rw [hpow]
  clear hpow
  generalize (2 : ℚ) ^ 1000 = B at *
  obtain ⟨hlo, hhi⟩ := abs_lt.mp hx
  have hdiff : |x - h| < 2 * B := abs_lt.mpr ⟨by linarith, by linarith⟩
  refine ⟨by linarith, fun hd => ?_⟩
  obtain ⟨hdlo, hdhi⟩ := abs_le.mp (by linarith : |x - h - d| ≤ B)
  exact abs_lt.mpr ⟨by linarith, by linarith⟩

/-- Settles O21: the three signs of the exact difference, each with the branch of the test it takes. -/
theorem afoldOnAnyWrittenWord : Obligations.AfoldOnAnyWrittenWord := by
  unfold Obligations.AfoldOnAnyWrittenWord
  intro s idx x hword
  refine ⟨foldValue x s.n, execAfold_of_written s idx x hword, fun hx hlt => ?_⟩
  obtain ⟨hn0, hn1⟩ := scaled_range s.n
  have hbounds (d : ℚ) := fold_bounds (d := d) hlt hn0 hn1
  refine ⟨fun hzero => foldValue_of_eq hx (sub_eq_zero.mp hzero), fun hpos => ?_, fun hneg => ?_⟩
  · obtain ⟨hround, -, -, hsign⟩ := fsub_hashValue hx rfl hpos.ne' (hbounds 0).1
    rwa [foldValue_of_not_ltZero (hsign.trans (decide_eq_false hpos.not_gt))]
  · obtain ⟨hround, hfin, hnear, hsign⟩ := fsub_hashValue hx rfl hneg.ne (hbounds 0).1
    rw [foldValue_of_ltZero (hsign.trans (decide_eq_true hneg))]
    exact ⟨_, hround, (fadd_one hfin).1, fun hne => (fadd_one hfin).2 hne ((hbounds _).2 hnear)⟩

/-! ### The seeding sequence -/

theorem run_add {M : Host.Core} {j k : ℕ} {s t : M.State} (h : M.run j s = .next t) : M.run (j + k) s = M.run k t := by
  induction j generalizing s with
  | zero =>
    obtain rfl := Host.Outcome.next.inj h
    rw [Nat.zero_add]
  | succ j ih =>
    rw [Nat.add_right_comm]
    cases hs : M.step s with
    | next s' =>
      rw [run_succ_of_step hs] at h ⊢
      exact ih h
    | fault r => simp [Host.Core.run, hs] at h
    | refused r => simp [Host.Core.run, hs] at h

/-- `s` with other inputs waiting and other responses given. -/
def State.withPort (s : State) (ins : List HostInput) (rsp : List Response) : State :=
  { s with inputs := ins, responses := rsp }

theorem setWord_withPort (s : State) (idx : WordIdx) (x : F64) (ins : List HostInput) (rsp : List Response) :
    (s.withPort ins rsp).setWord idx x = (s.setWord idx x).withPort ins rsp := by
  unfold State.setWord
  split_ifs <;> rfl

theorem withPort_succeed (s : State) (ins : List HostInput) (rsp : List Response) (d : F64) :
    (s.withPort ins rsp).succeed d = s.withPort ins (rsp ++ [⟨.ok, d⟩]) := rfl

/-- The commands, issued next in `s`, all answer `(OK, 0)` and leave the registers of `t`, whatever inputs wait behind
them and whatever was answered before. -/
def Completes (is : List Instr) (s t : State) : Prop :=
  ∀ (rest : List HostInput) (rsp : List Response),
    core.run is.length (s.withPort (commandInputs is ++ rest) rsp) =
      .next (t.withPort rest (rsp ++ List.replicate is.length ⟨.ok, 0#64⟩))

theorem commandInputs_append (is js : List Instr) : commandInputs (is ++ js) = commandInputs is ++ commandInputs js :=
  List.map_append

theorem Completes.append {is js : List Instr} {s t u : State} (h : Completes is s t) (h' : Completes js t u) :
    Completes (is ++ js) s u := by
  intro rest rsp
  rw [commandInputs_append, List.append_assoc, List.length_append, run_add (M := core) (h _ _), h', List.append_assoc,
    List.replicate_append_replicate]

theorem completes_singleton {i : Instr} {s t : State} (hwf : i.wellFormed = true)
    (h : ∀ rest rsp, exec i (s.withPort rest rsp) = .next (t.withPort rest (rsp ++ [⟨.ok, 0#64⟩]))) :
    Completes [i] s t :=
  fun rest rsp => run_succ_encode hwf rfl (h rest rsp) 0

theorem completes_minit (s : State) : Completes [.minit] s (s.setN Config.nInit) :=
  completes_singleton rfl fun _ _ => rfl

theorem completes_acinit (s : State) : Completes [.acinit] s (s.setC Config.cInit) :=
  completes_singleton rfl fun _ _ => rfl

theorem completes_mabs (s : State) (chr : ChrCode) : Completes [.mabs chr] s (s.setN (mashInt s.n chr)) :=
  completes_singleton rfl fun _ _ => exec_mabs _ chr

/-- Absorbing a text (R94 (a)). -/
theorem completes_absorb (s : State) (codes : List ChrCode) :
    Completes (pseudoAbsorb codes) s (s.setN (codes.foldl mashInt s.n)) := by
  intro rest rsp
  rw [pseudoAbsorb, List.length_map]
  exact absorbingComposesLeftToRight (s.withPort rest rsp) codes

theorem completes_aprime (s : State) {idx : WordIdx} (h : idx ≠ 3#2) :
    Completes [.aprime idx] s (s.setWord idx (latticeF64 s.n)) := by
  refine completes_singleton (by simpa [Instr.wellFormed, legalIdx] using h) fun rest rsp => ?_
  rw [exec_aprime _ h, setWord_withPort, withPort_succeed]
  rfl

theorem completes_afold {s : State} {idx : WordIdx} {k : Word} (h : s.word idx = some (.written (latticeF64 k))) :
    Completes [.afold idx] s (s.setWord idx (latticeF64 (k - s.n))) := by
  have hidx : idx ≠ 3#2 := fun hc => by simp [(word_eq_none_iff s idx).mpr hc] at h
  refine completes_singleton (by simpa [Instr.wellFormed, legalIdx] using hidx) fun rest rsp => ?_
  have h' : (s.withPort rest rsp).word idx = some (.written (latticeF64 k)) := h
  rw [exec_afold_lattice h', setWord_withPort, withPort_succeed]
  rfl

/-- `PRIME`: each word is loaded with the hash of one more space. -/
theorem completes_prime (s : State) {p0 p1 p2 : Word} (h0 : mashInt s.n Config.primeChr = p0)
    (h1 : mashInt p0 Config.primeChr = p1) (h2 : mashInt p1 Config.primeChr = p2) :
    Completes pseudoPrime s
      { s with n := p2, s0 := .written (latticeF64 p0), s1 := .written (latticeF64 p1),
               s2 := .written (latticeF64 p2) } := by
  subst h0 h1 h2
  exact (completes_mabs s _).append <| (completes_aprime _ (idx := 0#2) (by decide)).append <|
    (completes_mabs _ _).append <| (completes_aprime _ (idx := 1#2) (by decide)).append <|
    (completes_mabs _ _).append <| completes_aprime _ (idx := 2#2) (by decide)

/-- `FOLD "text"` on lattice words: the hash after one more text is subtracted from each. -/
theorem completes_fold (s : State) (codes : List ChrCode) {k0 k1 k2 f0 f1 f2 : Word}
    (hs0 : s.s0 = .written (latticeF64 k0)) (hs1 : s.s1 = .written (latticeF64 k1))
    (hs2 : s.s2 = .written (latticeF64 k2))
    (h0 : codes.foldl mashInt s.n = f0) (h1 : codes.foldl mashInt f0 = f1) (h2 : codes.foldl mashInt f1 = f2) :
    Completes (pseudoFold codes) s
      { s with n := f2, s0 := .written (latticeF64 (k0 - f0)), s1 := .written (latticeF64 (k1 - f1)),
               s2 := .written (latticeF64 (k2 - f2)) } := by
  subst h0 h1 h2
  exact (((((completes_absorb s codes).append (completes_afold (idx := 0#2) (congrArg some hs0))).append
    (completes_absorb _ codes)).append (completes_afold (idx := 1#2) (congrArg some hs1))).append
    (completes_absorb _ codes)).append (completes_afold (idx := 2#2) (congrArg some hs2))

theorem length_pseudoSeed (codes : List ChrCode) : (pseudoSeed codes).length = 11 + 3 * codes.length := by
  simp only [pseudoSeed, pseudoPrime, pseudoFold, pseudoAbsorb, List.length_append, List.length_map, List.length_cons,
    List.length_nil]
  omega

/-- Settles O24: `SEED` is `MINIT`, `PRIME`, `FOLD` and `ACINIT`, each of which completes. -/
theorem seedSequenceBuildsGenerator : Obligations.SeedSequenceBuildsGenerator := by
  unfold Obligations.SeedSequenceBuildsGenerator
  intro s codes p0 p1 p2 f0 f1 f2
  have hseed := (((completes_minit s).append (completes_prime _ rfl rfl rfl)).append
    (completes_fold _ codes rfl rfl rfl rfl rfl rfl)).append (completes_acinit _)
  rw [← length_pseudoSeed]
  exact hseed s.inputs s.responses

end Sys2Proof.Machine
end

section
/-!
SUPPORT. Proofs of the statements about the Alea draw family (spec/43_alea_draw.md R110 to R115). On lattice words the
draw is the integer draw (`drawStep_toAlea`); what is added here is what the two extractors make of its values, and how
the integer draw is inverted.
-/

namespace Sys2Proof.Machine

/-! ### Lattice words as an integer Alea state -/

theorem holdsAlea_iff_alea (s : State) (q : AleaInt) : s.HoldsAlea q ↔ s.alea = some q.toAlea :=
  (alea_eq_some_iff s q.toAlea).symm

/-- With all three flags 1 there is an Alea state (R110). -/
theorem exists_alea_of_flags {s : State} (hw : (s.w 0#2 && s.w 1#2 && s.w 2#2) = true) : ∃ q, s.alea = some q := by
  rw [← Option.ne_none_iff_exists']
  intro hnone
  rcases (alea_eq_none_iff s).mp hnone with h | h | h <;> simp [State.w, State.word, StateWord.flag, h] at hw

theorem exists_holdsAlea {s : State} (hs : s.OnLattice) (hw : (s.w 0#2 && s.w 1#2 && s.w 2#2) = true) :
    ∃ q, s.HoldsAlea q := by
  obtain ⟨q, hq⟩ := exists_alea_of_flags hw
  obtain ⟨z, rfl, -⟩ := alea_of_onLattice hs hq
  exact ⟨z, (holdsAlea_iff_alea s z).mpr hq⟩

/-- Different integers have different lattice values. -/
theorem latticeF64_injective : Function.Injective latticeF64 := by
  intro j k h
  have hval : (j.toNat : ℚ) * 2 ^ (-32 : ℤ) = k.toNat * 2 ^ (-32 : ℤ) := by
    rw [← (latticeF64_is j).2, ← (latticeF64_is k).2, h]
  exact BitVec.eq_of_toNat_eq (by exact_mod_cast mul_right_cancel₀ (by positivity) hval)

/-- A state holds at most one integer Alea state. -/
theorem holdsAlea_withAlea_iff (s : State) (q z : AleaInt) (rsp : List Response) :
    { s.withAlea q with responses := rsp }.HoldsAlea z ↔ q = z := by
  obtain ⟨k0, k1, k2, c⟩ := q
  obtain ⟨j0, j1, j2, d⟩ := z
  simp [State.HoldsAlea, State.withAlea, latticeF64_injective.eq_iff]

/-! ### The extractors on lattice values -/

theorem fractionBits_is {m : ℕ} (hm : m < 2 ^ 53) : f64Is (fractionBits m) (m * 2 ^ (-53 : ℤ)) := by
  rw [fractionBits_eq_rn m hm]
  simpa using rn_exact m (-53) (by simpa using hm) (by norm_num) (by norm_num)

/-- Scaling a lattice value up by `2^j` is exact, and its floor drops the `32 - j` bits that stay below 1 (R78). -/
theorem floorF64_fmul_lattice {x : F64} {i j : ℕ} (hij : i + j = 32) (hx : f64Is x (2 ^ j)) (k : Word) :
    floorF64 (fmul (latticeF64 k) x) = (k.toNat / 2 ^ i : ℕ) := by
  have hz : exactValue ⟨k.toNat, -i⟩ = k.toNat * 2 ^ (-32 : ℤ) * 2 ^ j := by
    rw [exactValue, mul_assoc, ← zpow_natCast, ← zpow_add₀ two_ne_zero]
    congr 2
    change -(i : ℤ) = -32 + j
    omega
  have his := rn_div_two_pow (m := k.toNat) (k := i) (by have := k.isLt; omega) (by omega)
  rw [fmul_eq (latticeF64_is k) hx _ hz, floorF64_eq his, Rat.floor_natCast_div_natCast,
    Int.natCast_ediv]

/-- `U32` on a draw of `k * 2^-32` returns `k` (R114). -/
theorem extractU32_lattice (k : Word) : extractU32 (latticeF64 k) = k.setWidth 64 := by
  have hfloor := floorF64_fmul_lattice (i := 0) (j := 32) rfl two32_is k
  rw [pow_zero, Nat.div_one] at hfloor
  have hfits : fitsU32 k.toNat = true := decide_eq_true ⟨by omega, by exact_mod_cast k.isLt⟩
  simp only [extractU32, hfloor, hfits, if_true]
  exact BitVec.eq_of_toNat_eq (by rw [BitVec.ofInt_natCast, BitVec.toNat_ofNat, BitVec.toNat_setWidth])

/-- The integer `F53` forms from two draws `k` and then `k'`, in units of `2^-53` (R114). -/
theorem f53_integer_lt (k k' : Word) : k.toNat * 2 ^ 21 + k'.toNat / 2 ^ 11 < 2 ^ 53 := by
  have := k.isLt
  have := k'.isLt
  omega

/-- `F53` on draws of `k * 2^-32` and then `k' * 2^-32` is exact (R114). -/
theorem extractF53_lattice (k k' : Word) :
    extractF53 (latticeF64 k) (latticeF64 k') = fractionBits (k.toNat * 2 ^ 21 + k'.toNat / 2 ^ 11) := by
  have hlow : k'.toNat / 2 ^ 11 < 2 ^ 53 := by
    have := k'.isLt
    omega
  rw [extractF53, floorF64_fmul_lattice (i := 11) (j := 21) rfl two21_is, fmul_twoM53_eq hlow,
    fractionBits_eq_rn _ (f53_integer_lt k k')]
  refine fadd_eq (latticeF64_is k) (fractionBits_is hlow) (.inl (lattice_ne_negZero k)) _ ?_
  rw [exactValue, Nat.cast_add, Nat.cast_mul]
  generalize k'.toNat / 2 ^ 11 = low
  push_cast
  norm_num
  ring

/-- Whatever the draw, the data of `U32` has bits 63:32 zero (R112). -/
theorem extractU32_lt (r : F64) : (extractU32 r).toNat < 2 ^ 32 := by
  unfold extractU32
  generalize floorF64 (fmul r Config.two32) = u
  dsimp only
  split
  · next hfits =>
    obtain ⟨hlo, hhi⟩ := of_decide_eq_true hfits
    lift u to ℕ using hlo
    rw [BitVec.ofInt_natCast, BitVec.toNat_ofNat]
    omega
  · rw [BitVec.toNat_setWidth]
    exact (Nat.mod_le _ _).trans_lt (BitVec.isLt _)

/-! ### The three commands on lattice words -/

/-- Settles O25: the draw of R110 on the lattice values of `q` is the integer draw. -/
theorem drawEqualsMultiplyWithCarry : Obligations.DrawEqualsMultiplyWithCarry := by
  unfold Obligations.DrawEqualsMultiplyWithCarry
  intro s q hq
  have h := execDraw_of_alea s _ ((holdsAlea_iff_alea s q).mp hq)
  rw [drawStep_toAlea] at h
  exact h

/-- Settles O26: the state is that of one integer draw or two, and the extractors are exact on their values. -/
theorem extractorsEqualIntegerForm : Obligations.ExtractorsEqualIntegerForm := by
  unfold Obligations.ExtractorsEqualIntegerForm
  intro s q hq
  have halea := (holdsAlea_iff_alea s q).mp hq
  rw [← extractU32_lattice, ← extractF53_lattice]
  constructor
  · have h := execU32_of_alea s _ halea
    rw [drawStep_toAlea] at h
    exact h
  · have h := execF53_of_alea s _ halea
    rw [drawStep_toAlea, drawStep_toAlea] at h
    exact h

/-- Settles O27: all three commands write back iterates of the same `drawStep`, and leave `n` alone. -/
theorem drawFamilySharesOneStream : Obligations.DrawFamilySharesOneStream := by
  unfold Obligations.DrawFamilySharesOneStream
  intro s a b d ha hb hd
  have hq : s.alea = some ⟨a, b, d, s.c⟩ := (alea_eq_some_iff s _).mpr ⟨ha, hb, hd, rfl⟩
  let q := drawStep ⟨a, b, d, s.c⟩
  have hnext := execDraw_of_alea ((s.setAlea q).succeed q.s2) q rfl
  exact ⟨_, _, _, rfl, execDraw_of_alea s _ hq, ⟨_, extractU32_lt _, execU32_of_alea s _ hq⟩, _, _, hnext,
    execF53_of_alea s _ hq⟩

/-! ### The range of the outputs -/

/-- A finite value `m * 2^-j` with `m < 2^j` lies in `[0, 1 - 2^-j]`. -/
theorem unit_range_of_f64Is {x : F64} {m j : ℕ} (hx : f64Is x (m * 2 ^ (-(j : ℤ)))) (hm : m < 2 ^ j) :
    f64Finite x ∧ 0 ≤ f64Value x ∧ f64Value x ≤ 1 - (2 : ℚ) ^ (-(j : ℤ)) := by
  obtain ⟨hfin, hval⟩ := hx
  have hle : (m : ℚ) + 1 ≤ 2 ^ j := by exact_mod_cast hm
  rw [hval]
  refine ⟨hfin, by positivity, ?_⟩
  calc (m : ℚ) * 2 ^ (-(j : ℤ)) ≤ (2 ^ j - 1) * 2 ^ (-(j : ℤ)) := by gcongr; linarith
    _ = 1 - 2 ^ (-(j : ℤ)) := by rw [sub_mul, one_mul, zpow_neg, zpow_natCast, mul_inv_cancel₀ (by positivity)]

/-- Settles O30: the outputs are `k * 2^-32`, `k` and `m * 2^-53` with `k < 2^32` and `m < 2^53`. -/
theorem drawOutputsInRange : Obligations.DrawOutputsInRange := by
  unfold Obligations.DrawOutputsInRange
  intro s hs hw
  obtain ⟨q, hq⟩ := exists_holdsAlea hs hw
  obtain ⟨hu32, hf53⟩ := extractorsEqualIntegerForm s q hq
  have hu : ((drawInt q).k2.setWidth 64).toNat < 2 ^ 32 := extractU32_lattice (drawInt q).k2 ▸ extractU32_lt _
  exact ⟨⟨_, _, drawEqualsMultiplyWithCarry s q hq, rfl,
      unit_range_of_f64Is (latticeF64_is _) (drawInt q).k2.isLt⟩,
    ⟨_, _, hu32, rfl, hu⟩,
    ⟨_, _, hf53, rfl, unit_range_of_f64Is (fractionBits_is (f53_integer_lt _ _)) (f53_integer_lt _ _)⟩⟩

/-! ### Inverting the integer draw -/

/-- The states a draw comes from: the words move up, and `A_MUL * k0 + c` has the new carry and the new word as its
quotient and remainder by `2^32` (R111). -/
theorem drawInt_eq_iff (q z : AleaInt) :
    drawInt q = z ↔
      q.k1 = z.k0 ∧ q.k2 = z.k1 ∧ 2091639 * q.k0.toNat + q.c.toNat = 2 ^ 32 * z.c.toNat + z.k2.toNat := by
  obtain ⟨k0, k1, k2, c⟩ := q
  obtain ⟨j0, j1, j2, d⟩ := z
  have hk := k0.isLt
  have hc := c.isLt
  have hj := j2.isLt
  have hd := d.isLt
  have hcarry : (2091639 * k0.toNat + c.toNat) / 2 ^ 32 < 2 ^ 32 := by omega
  simp only [drawInt, AleaInt.mk.injEq, ← BitVec.toNat_inj (x := BitVec.ofNat 32 _), BitVec.toNat_ofNat, Nat.mod_mod,
    Nat.mod_eq_of_lt hcarry]
  generalize 2091639 * k0.toNat + c.toNat = T
  exact and_congr_right fun _ => and_congr_right fun _ => by omega

theorem drawInt_eq_zero_iff (q : AleaInt) :
    drawInt q = ⟨0#32, 0#32, 0#32, 0#32⟩ ↔ q = ⟨0#32, 0#32, 0#32, 0#32⟩ := by
  obtain ⟨k0, k1, k2, c⟩ := q
  simp only [drawInt_eq_iff, AleaInt.mk.injEq, ← BitVec.toNat_inj, BitVec.toNat_ofNat]
  omega

theorem drawInt_eq_max_iff (q : AleaInt) (hc : q.c.toNat ≤ 2091638) :
    drawInt q = ⟨0xffffffff#32, 0xffffffff#32, 0xffffffff#32, 2091638#32⟩ ↔
      q = ⟨0xffffffff#32, 0xffffffff#32, 0xffffffff#32, 2091638#32⟩ := by
  obtain ⟨k0, k1, k2, c⟩ := q
  have hk := k0.isLt
  simp only [drawInt_eq_iff, AleaInt.mk.injEq, ← BitVec.toNat_inj, BitVec.toNat_ofNat] at hc ⊢
  omega

/-- After `DRAW` on lattice words the state holds the integer draw of what it held, and nothing else. -/
theorem draw_holdsAlea_iff {s t : State} {q : AleaInt} (hq : s.HoldsAlea q) (h : exec .draw s = .next t) (z : AleaInt) :
    t.HoldsAlea z ↔ drawInt q = z := by
  obtain rfl := Host.Outcome.next.inj (h.symm.trans (drawEqualsMultiplyWithCarry s q hq))
  exact holdsAlea_withAlea_iff s (drawInt q) z _

/-- Settles O31, on the integer draw. -/
theorem fixedPointsHaveNoOtherPredecessor : Obligations.FixedPointsHaveNoOtherPredecessor := by
  unfold Obligations.FixedPointsHaveNoOtherPredecessor
  exact ⟨fun _ _ q hq h => (draw_holdsAlea_iff hq h _).trans (drawInt_eq_zero_iff q),
    fun _ _ q hq hc h => (draw_holdsAlea_iff hq h _).trans (drawInt_eq_max_iff q hc)⟩

/-! ### A run to the all-zero Alea state -/

theorem reachable_of_run {k : ℕ} {s t : State} (hs : Reachable s) (h : core.run k s = .next t) : Reachable t := by
  induction k generalizing s with
  | zero => exact Host.Outcome.next.inj h ▸ hs
  | succ k ih =>
    cases hst : step s with
    | next u => exact ih (.step s u hs hst) ((run_succ_of_step (M := core) hst k).symm.trans h)
    | fault r => exact nomatch r
    | refused r => simp [Host.Core.run, show core.step s = .refused r from hst] at h

/-- Load the three words with the hash of a space and fold the first with that hash, which leaves 0 in it: a draw then
forms `t = c * 2^-32` from the carry 1 of the reset, so that the new carry is 0. -/
def clearFirstWord : List Instr :=
  [.mabs Config.primeChr, .aprime 0#2, .aprime 1#2, .aprime 2#2, .afold 0#2]

/-- Two character codes that bring the accumulator of `clearFirstWord` to 0, and the load of 0 into each word; the carry
is left alone. -/
def loadZeroWords : List Instr :=
  [.mabs 0x919#21, .mabs 0x11af94#21, .aprime 0#2, .aprime 1#2, .aprime 2#2]

/-- The hash of a space after reset (R91, vector M1). -/
def spaceHash : Word := 0xdd031fd2#32

/-- The integer Alea state that `clearFirstWord` leaves after reset. -/
def clearedAlea : AleaInt := ⟨0#32, spaceHash, spaceHash, 1#32⟩

theorem completes_clearFirstWord :
    Completes clearFirstWord State.reset ((State.reset.setN spaceHash).withAlea clearedAlea) := by
  have hhash : mashInt State.reset.n Config.primeChr = spaceHash := by decide +kernel
  have habs := completes_mabs State.reset Config.primeChr
  rw [hhash] at habs
  exact habs.append <| (completes_aprime _ (idx := 0#2) (by decide)).append <|
    (completes_aprime _ (idx := 1#2) (by decide)).append <| (completes_aprime _ (idx := 2#2) (by decide)).append <|
    completes_afold (idx := 0#2) (k := spaceHash) rfl

theorem completes_loadZeroWords {s : State} (hn : s.n = spaceHash) :
    Completes loadZeroWords s ((s.setN 0#32).withAlea ⟨0#32, 0#32, 0#32, s.c⟩) := by
  have hhash : mashInt (mashInt spaceHash 0x919#21) 0x11af94#21 = 0#32 := by decide +kernel
  have habs := (completes_mabs s 0x919#21).append (completes_mabs _ 0x11af94#21)
  rw [setN_n, hn, hhash] at habs
  exact habs.append <| (completes_aprime _ (idx := 0#2) (by decide)).append <|
    (completes_aprime _ (idx := 1#2) (by decide)).append <| completes_aprime _ (idx := 2#2) (by decide)

/-- Refutes O32: from reset, `clearFirstWord`, `DRAW` and `loadZeroWords` leave three zero words and carry 0. -/
theorem not_allZeroAleaStateIsUnreachable : ¬ Obligations.AllZeroAleaStateIsUnreachable := by
  unfold Obligations.AllZeroAleaStateIsUnreachable
  intro hunreachable
  have hstart := Reachable.reset (commandInputs clearFirstWord ++ commandInputs (.draw :: loadZeroWords))
  have hcleared := reachable_of_run hstart (completes_clearFirstWord _ [])
  have hdrawn := reachable_of_run hcleared <| run_succ_encode (i := .draw) rfl rfl
    (drawEqualsMultiplyWithCarry _ clearedAlea ⟨rfl, rfl, rfl, rfl⟩) 0
  have hloaded := reachable_of_run hdrawn (completes_loadZeroWords
    (s := (State.reset.setN spaceHash).withAlea (drawInt clearedAlea)) rfl [] _)
  have hcarry : (drawInt clearedAlea).c = 0#32 := by decide
  exact hunreachable _ hloaded ⟨rfl, rfl, rfl, hcarry⟩

end Sys2Proof.Machine
end

section
/-!
SUPPORT. Proofs of the statements about errors (spec/60_exceptions.md R120 to R129). The decoder has three outcomes, told
apart by `AssignedOpcode` and `BrokenOperand`, and a legal command fails with `UnwrittenState` only. So the status of a
response tells what its command word was: `AdmitsStatus`.
-/

namespace Sys2Proof.Machine

/-! ### The three outcomes of the decoder -/

theorem assignedOpcode_of_brokenOperand {cmd : Word} (h : BrokenOperand cmd) : AssignedOpcode cmd := by
  unfold AssignedOpcode
  rcases h with ⟨hopc, -⟩ | ⟨hopc, -⟩ | ⟨hopc, -⟩
  · exact (by decide : [0x10#8, 0x12#8, 0x22#8, 0x30#8, 0x31#8, 0x32#8] ⊆ _) hopc
  · simp [hopc]
  · exact (by decide : [0x20#8, 0x21#8] ⊆ _) hopc

theorem decode_of_unassigned {cmd : Word} (h : ¬ AssignedOpcode cmd) : decode cmd = .error .illegalOpcode := by
  simp only [AssignedOpcode, List.mem_cons, List.not_mem_nil, or_false, not_or] at h
  simp [decode, opcField, h]

/-- A format (R54) is one check of the operand field: a word that passes it is a command, and any other is refused. -/
theorem check_outcome {cmd : Word} {p : Prop} [Decidable p] (hp : BrokenOperand cmd ↔ ¬ p) {i : Instr}
    (hdec : decode cmd = if p then .ok i else .error .reservedField) :
    (BrokenOperand cmd ∧ decode cmd = .error .reservedField) ∨ (¬ BrokenOperand cmd ∧ ∃ j, decode cmd = .ok j) := by
  by_cases h : p
  · exact .inr ⟨fun hbroken => hp.mp hbroken h, i, hdec.trans (if_pos h)⟩
  · exact .inl ⟨hp.mpr h, hdec.trans (if_neg h)⟩

theorem decode_outcome_of_assigned {cmd : Word} (h : AssignedOpcode cmd) :
    (BrokenOperand cmd ∧ decode cmd = .error .reservedField) ∨ (¬ BrokenOperand cmd ∧ ∃ i, decode cmd = .ok i) := by
  simp only [AssignedOpcode, List.mem_cons, List.not_mem_nil, or_false] at h
  rcases h with h | h | h | h | h | h | h | h | h
  all_goals
    refine check_outcome ?_ (by simp only [decode, opcField, h]; rfl)
    simp [BrokenOperand, h, argField, legalIdx, imp_iff_not_or]

theorem decode_of_brokenOperand {cmd : Word} (h : BrokenOperand cmd) : decode cmd = .error .reservedField := by
  rcases decode_outcome_of_assigned (assignedOpcode_of_brokenOperand h) with ⟨-, hdec⟩ | ⟨hnot, -⟩
  · exact hdec
  · exact absurd h hnot

/-! ### A command fails or succeeds -/

/-- A legal command fails with `UnwrittenState` or succeeds (R53, R124). -/
theorem exec_outcome_of_wellFormed {i : Instr} (hwf : i.wellFormed = true) (s : State) :
    exec i s = .next (s.fail .unwrittenState) ∨
    ∃ t d, exec i s = .next t ∧ t.responses = s.responses ++ [⟨.ok, d⟩] := by
  by_cases hi : i = .draw ∨ i = .u32 ∨ i = .f53
  · obtain ⟨next, data, hexec⟩ := exec_draw_family i hi
    cases hq : s.alea with
    | none => exact .inl ((hexec s).1 hq)
    | some q => exact .inr ⟨_, _, (hexec s).2 q hq, rfl⟩
  cases i with
  | minit | mabs | mout | acinit => exact .inr ⟨_, _, rfl, rfl⟩
  | aprime idx =>
    have hidx : idx ≠ 3#2 := bne_iff_ne.mp hwf
    exact .inr ⟨_, 0#64, execAprime_legal s idx hidx, by simp⟩
  | afold idx =>
    have hidx : idx ≠ 3#2 := bne_iff_ne.mp hwf
    rcases hword : s.word idx with _ | _ | x
    · exact absurd ((word_eq_none_iff s idx).mp hword) hidx
    · exact .inl (execAfold_of_unwritten s idx hword)
    · exact .inr ⟨_, 0#64, execAfold_of_written s idx x hword, by simp⟩
  | draw | u32 | f53 => simp at hi

/-- What a command word must be for its response to have a status (R122 to R125). -/
def AdmitsStatus (cmd : Word) : Status → Prop
  | .illegalOpcode => ¬ AssignedOpcode cmd
  | .reservedField => BrokenOperand cmd
  | .ok | .unwrittenState => AssignedOpcode cmd ∧ ¬ BrokenOperand cmd

/-- What the block answers to a command word: an error, with all but the response as it was, or success; the word admits
the status. -/
theorem step_command_outcome {s : State} {cmd : Word} {rest : List HostInput} (hin : s.inputs = .command cmd :: rest) :
    (∃ st, step s = .next ({ s with inputs := rest }.fail st) ∧ AdmitsStatus cmd st) ∨
    ∃ t d, step s = .next t ∧ t.responses = s.responses ++ [⟨.ok, d⟩] ∧ AdmitsStatus cmd .ok := by
  by_cases hopc : AssignedOpcode cmd
  · rcases decode_outcome_of_assigned hopc with ⟨hbroken, hdec⟩ | ⟨hgood, i, hdec⟩
    · exact .inl ⟨.reservedField, step_command_of_decode_error hin hdec, hbroken⟩
    · have hstep := step_command_of_decode_ok hin hdec
      obtain ⟨hwf, -⟩ := (decode_eq_ok_iff cmd i).mp hdec
      rcases exec_outcome_of_wellFormed hwf { s with inputs := rest } with hexec | ⟨t, d, hexec, ht⟩
      · exact .inl ⟨.unwrittenState, hstep.trans hexec, hopc, hgood⟩
      · exact .inr ⟨t, d, hstep.trans hexec, ht, hopc, hgood⟩
  · exact .inl ⟨.illegalOpcode, step_command_of_decode_error hin (decode_of_unassigned hopc), hopc⟩

/-- One response follows the earlier ones, so it can be read off the list. -/
theorem response_eq_of_append {rs : List Response} {r r' : Response} (h : rs ++ [r] = rs ++ [r']) : r = r' := by
  simpa using h

/-- The response to a command word has a status the word admits. -/
theorem admitsStatus_of_step {s t : State} {cmd : Word} {r : Response} {st : Status}
    (h : step (s.issue cmd) = .next t) (hr : t.responses = s.responses ++ [r]) (hstatus : r.status = st) :
    AdmitsStatus cmd st := by
  subst hstatus
  rcases step_command_outcome (s := s.issue cmd) rfl with ⟨st, hst, hadm⟩ | ⟨t', d, hst, ht, hadm⟩
  · obtain rfl := Host.Outcome.next.inj (h.symm.trans hst)
    obtain rfl := response_eq_of_append hr
    exact hadm
  · obtain rfl := Host.Outcome.next.inj (h.symm.trans hst)
    obtain rfl := response_eq_of_append (ht.symm.trans hr)
    exact hadm

/-! ### The errors of the decoder, and their order -/

/-- Settles O5: the decoder refuses an unassigned opcode, and only such a word admits the status. -/
theorem unassignedOpcodeAnswersIllegal : Obligations.UnassignedOpcodeAnswersIllegal := by
  unfold Obligations.UnassignedOpcodeAnswersIllegal
  exact ⟨fun s cmd hopc => step_command_of_decode_error (s := s.issue cmd) rfl (decode_of_unassigned hopc),
    fun _ _ _ _ => admitsStatus_of_step⟩

/-- Settles O6: the decoder refuses a broken operand field, and only such a word admits the status. -/
theorem brokenOperandAnswersReserved : Obligations.BrokenOperandAnswersReserved := by
  unfold Obligations.BrokenOperandAnswersReserved
  exact ⟨fun s cmd hbroken => step_command_of_decode_error (s := s.issue cmd) rfl (decode_of_brokenOperand hbroken),
    fun _ _ _ _ => admitsStatus_of_step⟩

/-- Settles O7: only a word in order admits `UnwrittenState`; the two examples have broken operand fields. -/
theorem errorPriorityIsDecodeOrder : Obligations.ErrorPriorityIsDecodeOrder := by
  unfold Obligations.ErrorPriorityIsDecodeOrder
  obtain ⟨hreserved, -⟩ := brokenOperandAnswersReserved
  have hdraw : BrokenOperand 0x30000001#32 := by unfold BrokenOperand; decide
  have hafold : BrokenOperand 0x21000003#32 := by unfold BrokenOperand; decide
  exact ⟨fun _ _ _ _ => admitsStatus_of_step, fun _ => assignedOpcode_of_brokenOperand,
    fun s => hreserved s _ hdraw, fun s => hreserved s _ hafold⟩

/-! ### Every command is answered, and an error changes nothing -/

/-- Settles O11: the decoder's error is one response, and so is what a command answers; no step stops. -/
theorem everyCommandIsAnswered : Obligations.EveryCommandIsAnswered := by
  unfold Obligations.EveryCommandIsAnswered
  constructor
  · intro s cmd rest hin
    cases hdec : decode cmd with
    | error e => exact ⟨_, _, step_command_of_decode_error hin hdec, rfl, rfl⟩
    | ok i =>
      obtain ⟨t, hexec⟩ := exec_answers i { s with inputs := rest }
      obtain ⟨hinputs, ⟨r, hr⟩, -⟩ := accessMatrixWrites i _ t hexec
      exact ⟨t, r, (step_command_of_decode_ok hin hdec).trans hexec, hr, hinputs⟩
  · intro s
    rcases step_cases s with ⟨-, hst⟩ | ⟨rest, -, hst⟩ | ⟨cmd, rest, e, -, -, hst⟩ | ⟨cmd, rest, i, -, -, hst⟩
    · exact ⟨_, hst⟩
    · exact ⟨_, hst⟩
    · exact ⟨_, hst⟩
    · obtain ⟨t, hexec⟩ := exec_answers i { s with inputs := rest }
      exact ⟨t, hst.trans hexec⟩

/-- Settles O37: an error is `State.fail`, which writes no register, and success has the status `OK`. -/
theorem failingCommandChangesNothing : Obligations.FailingCommandChangesNothing := by
  unfold Obligations.FailingCommandChangesNothing
  intro s t cmd rest r hin h hr hstatus
  rcases step_command_outcome hin with ⟨st, hst, -⟩ | ⟨t', d, hst, ht, -⟩
  · obtain rfl := Host.Outcome.next.inj (h.symm.trans hst)
    obtain rfl := response_eq_of_append hr
    exact ⟨⟨rfl, rfl, rfl, rfl, rfl⟩, rfl, rfl⟩
  · obtain rfl := Host.Outcome.next.inj (h.symm.trans hst)
    obtain rfl := response_eq_of_append (ht.symm.trans hr)
    exact absurd rfl hstatus

/-- Settles O9: there is no next input. -/
theorem noInputNoChange : Obligations.NoInputNoChange := by
  unfold Obligations.NoInputNoChange
  intro s hin
  simp only [step, nextInput_nil s hin]

/-! ### The error of an unwritten word -/

/-- A success is told from an error by its response. -/
theorem succeed_ne_fail_unwritten {s t : State} (ht : t.responses = s.responses) (d : F64) :
    (.next (t.succeed d) : Host.Outcome State Fault Refusal) ≠ .next (s.fail .unwrittenState) := by
  intro h
  have hresponses := congrArg State.responses (Host.Outcome.next.inj h)
  rw [succeed_responses, ht] at hresponses
  cases response_eq_of_append hresponses

theorem w_of_unwritten {s : State} {idx : WordIdx} (h : s.word idx = some .unwritten) : s.w idx = false := by
  simp [State.w, h, StateWord.flag]

theorem flags_of_alea {s : State} {q : Alea} (h : s.alea = some q) : (s.w 0#2 && s.w 1#2 && s.w 2#2) = true := by
  obtain ⟨h0, h1, h2, -⟩ := (alea_eq_some_iff s q).mp h
  simp [State.w, State.word, StateWord.flag, h0, h1, h2]

theorem exec_keeps_flag {i : Instr} {s t : State} (h : exec i s = .next t) {j : WordIdx} (hj : s.w j = true) :
    t.w j = true := by
  rcases exec_flag i s t h j with hsame | ⟨-, hset⟩
  · exact hsame.trans hj
  · exact hset

theorem exec_afold_fails_iff (s : State) {idx : WordIdx} (hidx : idx ≠ 3#2) :
    exec (.afold idx) s = .next (s.fail .unwrittenState) ↔ s.w idx = false := by
  rcases hword : s.word idx with _ | _ | x
  · exact absurd ((word_eq_none_iff s idx).mp hword) hidx
  · exact iff_of_true (execAfold_of_unwritten s idx hword) (w_of_unwritten hword)
  · refine iff_of_false ?_ (by simp [w_of_written hword])
    rw [exec, execAfold_of_written s idx x hword]
    exact succeed_ne_fail_unwritten (by simp) _

theorem exec_draw_family_fails_iff {i : Instr} (hi : i = .draw ∨ i = .u32 ∨ i = .f53) (s : State) :
    exec i s = .next (s.fail .unwrittenState) ↔ (s.w 0#2 && s.w 1#2 && s.w 2#2) = false := by
  obtain ⟨next, data, hexec⟩ := exec_draw_family i hi
  cases hq : s.alea with
  | none =>
    refine iff_of_true ((hexec s).1 hq) (Bool.eq_false_iff.mpr fun hflags => ?_)
    obtain ⟨q, hsome⟩ := exists_alea_of_flags hflags
    simp [hq] at hsome
  | some q =>
    refine iff_of_false ?_ (by rw [flags_of_alea hq]; decide)
    rw [(hexec s).2 q hq]
    exact succeed_ne_fail_unwritten (setAlea_responses s _) _

/-- Settles O28, by the outcomes of `AFOLD` and of the draw family, and since no command clears a flag. -/
theorem unwrittenStateExactlyWhenFlagClear : Obligations.UnwrittenStateExactlyWhenFlagClear := by
  unfold Obligations.UnwrittenStateExactlyWhenFlagClear
  refine ⟨fun s _ => exec_afold_fails_iff s, fun s _ hi => exec_draw_family_fails_iff hi s, ?_⟩
  intro s t i hflags h
  simp only [Bool.and_eq_true] at hflags ⊢
  obtain ⟨⟨h0, h1⟩, h2⟩ := hflags
  exact ⟨⟨exec_keeps_flag h h0, exec_keeps_flag h h1⟩, exec_keeps_flag h h2⟩

/-! ### The status codes -/

/-- Settles O51, status by status. -/
theorem statusCodes : Obligations.StatusCodes := by
  unfold Obligations.StatusCodes
  refine ⟨rfl, rfl, rfl, rfl, fun st => ?_⟩
  cases st <;> decide

end Sys2Proof.Machine
end

section
/-!
SUPPORT. Proof of the statement about the reset event (spec/70_reset_and_hazards.md R140, R141).
-/

namespace Sys2Proof.Machine

/-- R140: a step whose next input is `RESET` is the reset event. -/
theorem step_reset {s : State} {rest : List HostInput} (hin : s.inputs = .reset :: rest) :
    step s = .next { s with inputs := rest }.applyReset := by
  simp only [step, nextInput_cons s _ rest hin]

/-- A reset forgets every register, so after another reset it makes no difference (R141). -/
theorem applyReset_of_applyReset (s : State) (rest : List HostInput) :
    State.applyReset { s.applyReset with inputs := rest } = State.applyReset { s with inputs := rest } :=
  rfl

theorem run_one_reset {s : State} {rest : List HostInput} (hin : s.inputs = .reset :: rest) :
    core.run 1 s = .next { s with inputs := rest }.applyReset :=
  run_succ_of_step (M := core) (step_reset hin) 0

/-- Settles O10: the first of two resets leaves the second one waiting, and that one gives the state a single reset
gives. -/
theorem resetEventSetsResetState : Obligations.ResetEventSetsResetState := by
  unfold Obligations.ResetEventSetsResetState
  refine ⟨fun s rest hin => step_reset hin, fun s rest hin => ?_⟩
  let waiting : State := { s with inputs := .reset :: rest }
  calc core.run 2 s = core.run 1 waiting.applyReset := run_succ_of_step (M := core) (step_reset hin) 1
    _ = .next (State.applyReset { waiting.applyReset with inputs := rest }) := run_one_reset rfl
    _ = .next (State.applyReset { waiting with inputs := rest }) := by rw [applyReset_of_applyReset]
    _ = core.run 1 waiting := (run_one_reset rfl).symm

end Sys2Proof.Machine
end
